-- ==== Sys2Proof/Word.lean ====
section
/-! DEFINITION. The words of the machine (00_scope.md R4, R5, R6): bytes, 16-bit words, register numbers. -/

namespace Sys2Proof

/-- An 8-bit value: a general register, a memory cell, a timer, an immediate `NN` (R4). -/
abbrev Byte := BitVec 8

/-- A 16-bit value: `I`, `pc`, a stack entry, an instruction word (R4). -/
abbrev Word := BitVec 16

/-- A 12-bit immediate `NNN`, a byte address (R93). -/
abbrev Addr := BitVec 12

/-- A register number 0 to 15, used directly as an index into `x[]` (R20, R93). -/
abbrev Reg := Fin 16

/-- The number of VF, register 15, the machine's only flag (R21). -/
abbrev VF : Reg := 15

end Sys2Proof
end

