-- ==== Sys2Proof/Config.lean ====
section
/-! DEFINITION. What is fixed for this hardware (00_scope.md R4) and the one free value (R12). The font table, which the
spec's rule R34 makes a parameter with a default, stands in Machine/Font.lean. -/

namespace Sys2Proof.Config

/-- `MEM_SIZE` (R4, R60). -/
abbrev memSize : Nat := 4096

/-- `PROG_BASE`, the first program byte and the reset value of `pc` (R4). -/
abbrev progBase : Nat := 0x200

/-- `PROG_MAX`, the size in bytes of the largest program: `4096 - 512` (R4, R242). -/
abbrev progMax : Nat := 3584

/-- `FONT_LEN`, the bytes of the built-in font, at addresses 0 to 79 (R4, R34). -/
abbrev fontLen : Nat := 80

/-- The draws of the input `rnd` (R12, R39): draw number `k` of the run is `rndByte k`. It has no body, so nothing can be
proved about a drawn value, and two draws are independent. DESIGN CHOICE, safe: log entry 2. -/
opaque rndByte : Nat → Byte

end Sys2Proof.Config
end

