-- ==== Sys2Proof/Syntax.lean ====
section
/-! DEFINITION. The instructions: one constructor per row of the opcode map (30_encoding.md R96), in the map's order.
Operands are those of R93: register numbers `x`, `y`, an 8-bit immediate `nn`, a 12-bit address `nnn`, a count of sprite
rows `n` (whose bound 15 WellFormed.lean checks). The mnemonics are the table's. -/

namespace Sys2Proof

inductive Instr where
  /-- 00E0 `CLS` (R170). -/
  | cls
  /-- 00EE `RET` (R120). -/
  | ret
  /-- 1nnn `JP nnn` (R121). -/
  | jp (nnn : Addr)
  /-- 2nnn `CALL nnn` (R122). -/
  | call (nnn : Addr)
  /-- 3xnn `SE Vx, nn` (R130). -/
  | seImm (x : Reg) (nn : Byte)
  /-- 4xnn `SNE Vx, nn` (R131). -/
  | sneImm (x : Reg) (nn : Byte)
  /-- 5xy0 `SE Vx, Vy` (R132). -/
  | seReg (x y : Reg)
  /-- 6xnn `LD Vx, nn` (R140). -/
  | ldImm (x : Reg) (nn : Byte)
  /-- 7xnn `ADD Vx, nn` (R141). -/
  | addImm (x : Reg) (nn : Byte)
  /-- 8xy0 `LD Vx, Vy` (R142). -/
  | ldReg (x y : Reg)
  /-- 8xy1 `OR Vx, Vy` (R143). -/
  | orReg (x y : Reg)
  /-- 8xy2 `AND Vx, Vy` (R144). -/
  | andReg (x y : Reg)
  /-- 8xy3 `XOR Vx, Vy` (R145). -/
  | xorReg (x y : Reg)
  /-- 8xy4 `ADD Vx, Vy` (R146). -/
  | addReg (x y : Reg)
  /-- 8xy5 `SUB Vx, Vy` (R147). -/
  | subReg (x y : Reg)
  /-- 8xy6 `SHR Vx` (R148); the field `y` is decoded and ignored (R97). -/
  | shr (x y : Reg)
  /-- 8xy7 `SUBN Vx, Vy` (R149). -/
  | subnReg (x y : Reg)
  /-- 8xyE `SHL Vx` (R150); the field `y` is decoded and ignored (R97). -/
  | shl (x y : Reg)
  /-- 9xy0 `SNE Vx, Vy` (R133). -/
  | sneReg (x y : Reg)
  /-- Annn `LD I, nnn` (R160). -/
  | ldI (nnn : Addr)
  /-- Bnnn `JP V0, nnn` (R123). -/
  | jpV0 (nnn : Addr)
  /-- Cxnn `RND Vx, nn` (R151). -/
  | rnd (x : Reg) (nn : Byte)
  /-- Dxyn `DRW Vx, Vy, n` (R171). -/
  | drw (x y : Reg) (n : Nat)
  /-- Ex9E `SKP Vx` (R180). -/
  | skp (x : Reg)
  /-- ExA1 `SKNP Vx` (R181). -/
  | sknp (x : Reg)
  /-- Fx07 `LD Vx, DT` (R182). -/
  | ldVxDt (x : Reg)
  /-- Fx0A `LD Vx, K` (R183). -/
  | ldVxK (x : Reg)
  /-- Fx15 `LD DT, Vx` (R184). -/
  | ldDtVx (x : Reg)
  /-- Fx18 `LD ST, Vx` (R185). -/
  | ldStVx (x : Reg)
  /-- Fx1E `ADD I, Vx` (R161). -/
  | addI (x : Reg)
  /-- Fx29 `LD F, Vx` (R162). -/
  | ldF (x : Reg)
  /-- Fx33 `LD B, Vx` (R163). -/
  | ldB (x : Reg)
  /-- Fx55 `LD [I], Vx` (R164). -/
  | ldMemVx (x : Reg)
  /-- Fx65 `LD Vx, [I]` (R165). -/
  | ldVxMem (x : Reg)
  deriving DecidableEq, Repr

end Sys2Proof
end

