-- ==== Sys2Proof/WellFormed.lean ====
section
/-! DEFINITION. Which terms stand for something of this hardware: an instruction whose operands fit their fields, a
program image that fits the memory. -/

namespace Sys2Proof

/-- The operands fit the fields of the encoding (30_encoding.md R92, R93). The types of register numbers, bytes and
addresses already bound those; the row count `N` of `DRW` is 0 to 15. -/
def Instr.wf : Instr → Bool
  | .cls | .ret => true
  | .jp _ | .call _ | .ldI _ | .jpV0 _ => true
  | .seImm _ _ | .sneImm _ _ | .ldImm _ _ | .addImm _ _ | .rnd _ _ => true
  | .seReg _ _ | .sneReg _ _ | .ldReg _ _ | .orReg _ _ | .andReg _ _ | .xorReg _ _ => true
  | .addReg _ _ | .subReg _ _ | .shr _ _ | .subnReg _ _ | .shl _ _ => true
  | .drw _ _ n => decide (n < 16)
  | .skp _ | .sknp _ | .ldVxDt _ | .ldVxK _ | .ldDtVx _ | .ldStVx _ => true
  | .addI _ | .ldF _ | .ldB _ | .ldMemVx _ | .ldVxMem _ => true

/-- A program image the loader takes: at most 3584 bytes (70_reset_and_hazards.md R242, R243). -/
def imageFits (bytes : List Byte) : Bool :=
  decide (bytes.length ≤ Config.progMax)

end Sys2Proof
end

