-- ==== Sys2Proof/Decode.lean ====
section
/-! DEFINITION. Decoding (30_encoding.md R91 to R101) and, after it, encoding. `decodeWord` is the spec's two-step decoder
(R94: the family nibble, R95: the secondary selector); `opcodeMap` is the same thing as the spec's table of masks and
matches (R96). -/

namespace Sys2Proof

/-! ### The fields of a word (R5, R92) -/

/-- A register number from its 4-bit field. -/
def regOfBits (b : BitVec 4) : Reg := ⟨b.toNat, b.isLt⟩

/-- `w[15:12]`, the family (R92). -/
def familyOf (w : Word) : Nat := (w.extractLsb' 12 4).toNat

/-- `X = w[11:8]` (R93). -/
def fieldX (w : Word) : Reg := regOfBits (w.extractLsb' 8 4)

/-- `Y = w[7:4]` (R93). -/
def fieldY (w : Word) : Reg := regOfBits (w.extractLsb' 4 4)

/-- `N = w[3:0]`, an unsigned count 0 to 15 (R93), and the selector of family 8 (R95). -/
def fieldN (w : Word) : Nat := (w.extractLsb' 0 4).toNat

/-- `NN = w[7:0]` (R93), and the selector of families E and F (R95). -/
def fieldNN (w : Word) : Byte := w.extractLsb' 0 8

/-- `NNN = w[11:0]` (R93). -/
def fieldNNN (w : Word) : Addr := w.extractLsb' 0 12

/-! ### Decoding -/

/-- Why bytes are no instruction. -/
inductive DecodeError where
  /-- Fewer than the two bytes every instruction has (R91). A fetch always supplies two. -/
  | truncated
  /-- The word matches no row of the opcode map (R99 to R101). A step runs it as the no-op of R100. -/
  | unknownWord (w : Word)
  deriving DecidableEq, Repr

/-- Family 0: the two exact words 00E0 and 00EE (R95). -/
def decodeFamily0 (w : Word) : Except DecodeError Instr :=
  if w = 0x00E0#16 then .ok .cls
  else if w = 0x00EE#16 then .ok .ret
  else .error (.unknownWord w)

/-- Family 8, selected by the low nibble (R95). -/
def decodeFamily8 (w : Word) : Except DecodeError Instr :=
  let x := fieldX w
  let y := fieldY w
  match fieldN w with
  | 0 => .ok (.ldReg x y)
  | 1 => .ok (.orReg x y)
  | 2 => .ok (.andReg x y)
  | 3 => .ok (.xorReg x y)
  | 4 => .ok (.addReg x y)
  | 5 => .ok (.subReg x y)
  | 6 => .ok (.shr x y)
  | 7 => .ok (.subnReg x y)
  | 14 => .ok (.shl x y)
  | _ => .error (.unknownWord w)

/-- Family E, selected by the low byte (R95). -/
def decodeFamilyE (w : Word) : Except DecodeError Instr :=
  let x := fieldX w
  if fieldNN w = 0x9E#8 then .ok (.skp x)
  else if fieldNN w = 0xA1#8 then .ok (.sknp x)
  else .error (.unknownWord w)

/-- Family F, selected by the low byte (R95). -/
def decodeFamilyF (w : Word) : Except DecodeError Instr :=
  let x := fieldX w
  if fieldNN w = 0x07#8 then .ok (.ldVxDt x)
  else if fieldNN w = 0x0A#8 then .ok (.ldVxK x)
  else if fieldNN w = 0x15#8 then .ok (.ldDtVx x)
  else if fieldNN w = 0x18#8 then .ok (.ldStVx x)
  else if fieldNN w = 0x1E#8 then .ok (.addI x)
  else if fieldNN w = 0x29#8 then .ok (.ldF x)
  else if fieldNN w = 0x33#8 then .ok (.ldB x)
  else if fieldNN w = 0x55#8 then .ok (.ldMemVx x)
  else if fieldNN w = 0x65#8 then .ok (.ldVxMem x)
  else .error (.unknownWord w)

/-- `decode(w)`: the family nibble (R94), then the secondary selector (R95). In families 5 and 9 the literal low nibble 0
is compared (R95; the spec's choice D8 between two readings of its source: log entry 11). -/
def decodeWord (w : Word) : Except DecodeError Instr :=
  match familyOf w with
  | 0 => decodeFamily0 w
  | 1 => .ok (.jp (fieldNNN w))
  | 2 => .ok (.call (fieldNNN w))
  | 3 => .ok (.seImm (fieldX w) (fieldNN w))
  | 4 => .ok (.sneImm (fieldX w) (fieldNN w))
  | 5 => if fieldN w = 0 then .ok (.seReg (fieldX w) (fieldY w)) else .error (.unknownWord w)
  | 6 => .ok (.ldImm (fieldX w) (fieldNN w))
  | 7 => .ok (.addImm (fieldX w) (fieldNN w))
  | 8 => decodeFamily8 w
  | 9 => if fieldN w = 0 then .ok (.sneReg (fieldX w) (fieldY w)) else .error (.unknownWord w)
  | 10 => .ok (.ldI (fieldNNN w))
  | 11 => .ok (.jpV0 (fieldNNN w))
  | 12 => .ok (.rnd (fieldX w) (fieldNN w))
  | 13 => .ok (.drw (fieldX w) (fieldY w) (fieldN w))
  | 14 => decodeFamilyE w
  | _ => decodeFamilyF w

/-- The word two bytes make: the byte at the lower address is the most significant (20_memory.md R64, R67). -/
def wordOfBytes (hi lo : Byte) : Word := hi ++ lo

/-- The first instruction of a sequence of bytes, and the bytes after it: always two bytes, high byte first (R91). -/
def decode : List Byte → Except DecodeError (Instr × List Byte)
  | hi :: lo :: rest =>
    match decodeWord (wordOfBytes hi lo) with
    | .ok i => .ok (i, rest)
    | .error e => .error e
  | [_] | [] => .error .truncated

/-! ### The opcode map as a table (R96) -/

/-- A row of the opcode map: `w` is of this row when `w & mask = opcode`. -/
structure OpcodeRow where
  pattern : String
  mask : Word
  opcode : Word
  deriving DecidableEq, Repr

/-- `w` matches the row (R96). -/
def OpcodeRow.covers (r : OpcodeRow) (w : Word) : Bool := w &&& r.mask == r.opcode

/-- The opcode map of R96, rows 1 to 34. -/
def opcodeMap : List OpcodeRow :=
  [⟨"00E0", 0xFFFF, 0x00E0⟩, ⟨"00EE", 0xFFFF, 0x00EE⟩, ⟨"1nnn", 0xF000, 0x1000⟩, ⟨"2nnn", 0xF000, 0x2000⟩,
   ⟨"3xnn", 0xF000, 0x3000⟩, ⟨"4xnn", 0xF000, 0x4000⟩, ⟨"5xy0", 0xF00F, 0x5000⟩, ⟨"6xnn", 0xF000, 0x6000⟩,
   ⟨"7xnn", 0xF000, 0x7000⟩] ++
  [⟨"8xy0", 0xF00F, 0x8000⟩, ⟨"8xy1", 0xF00F, 0x8001⟩, ⟨"8xy2", 0xF00F, 0x8002⟩, ⟨"8xy3", 0xF00F, 0x8003⟩,
   ⟨"8xy4", 0xF00F, 0x8004⟩, ⟨"8xy5", 0xF00F, 0x8005⟩, ⟨"8xy6", 0xF00F, 0x8006⟩, ⟨"8xy7", 0xF00F, 0x8007⟩,
   ⟨"8xyE", 0xF00F, 0x800E⟩, ⟨"9xy0", 0xF00F, 0x9000⟩] ++
  [⟨"Annn", 0xF000, 0xA000⟩, ⟨"Bnnn", 0xF000, 0xB000⟩, ⟨"Cxnn", 0xF000, 0xC000⟩, ⟨"Dxyn", 0xF000, 0xD000⟩,
   ⟨"Ex9E", 0xF0FF, 0xE09E⟩, ⟨"ExA1", 0xF0FF, 0xE0A1⟩] ++
  [⟨"Fx07", 0xF0FF, 0xF007⟩, ⟨"Fx0A", 0xF0FF, 0xF00A⟩, ⟨"Fx15", 0xF0FF, 0xF015⟩, ⟨"Fx18", 0xF0FF, 0xF018⟩,
   ⟨"Fx1E", 0xF0FF, 0xF01E⟩, ⟨"Fx29", 0xF0FF, 0xF029⟩, ⟨"Fx33", 0xF0FF, 0xF033⟩, ⟨"Fx55", 0xF0FF, 0xF055⟩,
   ⟨"Fx65", 0xF0FF, 0xF065⟩]

/-- The row of the map an instruction belongs to (R96). -/
def Instr.row : Instr → OpcodeRow
  | .cls => ⟨"00E0", 0xFFFF, 0x00E0⟩
  | .ret => ⟨"00EE", 0xFFFF, 0x00EE⟩
  | .jp _ => ⟨"1nnn", 0xF000, 0x1000⟩
  | .call _ => ⟨"2nnn", 0xF000, 0x2000⟩
  | .seImm _ _ => ⟨"3xnn", 0xF000, 0x3000⟩
  | .sneImm _ _ => ⟨"4xnn", 0xF000, 0x4000⟩
  | .seReg _ _ => ⟨"5xy0", 0xF00F, 0x5000⟩
  | .ldImm _ _ => ⟨"6xnn", 0xF000, 0x6000⟩
  | .addImm _ _ => ⟨"7xnn", 0xF000, 0x7000⟩
  | .ldReg _ _ => ⟨"8xy0", 0xF00F, 0x8000⟩
  | .orReg _ _ => ⟨"8xy1", 0xF00F, 0x8001⟩
  | .andReg _ _ => ⟨"8xy2", 0xF00F, 0x8002⟩
  | .xorReg _ _ => ⟨"8xy3", 0xF00F, 0x8003⟩
  | .addReg _ _ => ⟨"8xy4", 0xF00F, 0x8004⟩
  | .subReg _ _ => ⟨"8xy5", 0xF00F, 0x8005⟩
  | .shr _ _ => ⟨"8xy6", 0xF00F, 0x8006⟩
  | .subnReg _ _ => ⟨"8xy7", 0xF00F, 0x8007⟩
  | .shl _ _ => ⟨"8xyE", 0xF00F, 0x800E⟩
  | .sneReg _ _ => ⟨"9xy0", 0xF00F, 0x9000⟩
  | .ldI _ => ⟨"Annn", 0xF000, 0xA000⟩
  | .jpV0 _ => ⟨"Bnnn", 0xF000, 0xB000⟩
  | .rnd _ _ => ⟨"Cxnn", 0xF000, 0xC000⟩
  | .drw _ _ _ => ⟨"Dxyn", 0xF000, 0xD000⟩
  | .skp _ => ⟨"Ex9E", 0xF0FF, 0xE09E⟩
  | .sknp _ => ⟨"ExA1", 0xF0FF, 0xE0A1⟩
  | .ldVxDt _ => ⟨"Fx07", 0xF0FF, 0xF007⟩
  | .ldVxK _ => ⟨"Fx0A", 0xF0FF, 0xF00A⟩
  | .ldDtVx _ => ⟨"Fx15", 0xF0FF, 0xF015⟩
  | .ldStVx _ => ⟨"Fx18", 0xF0FF, 0xF018⟩
  | .addI _ => ⟨"Fx1E", 0xF0FF, 0xF01E⟩
  | .ldF _ => ⟨"Fx29", 0xF0FF, 0xF029⟩
  | .ldB _ => ⟨"Fx33", 0xF0FF, 0xF033⟩
  | .ldMemVx _ => ⟨"Fx55", 0xF0FF, 0xF055⟩
  | .ldVxMem _ => ⟨"Fx65", 0xF0FF, 0xF065⟩

/-! ### Encoding, from the same formats (R92) -/

/-- The 4-bit field of a register number. -/
def bitsOfReg (r : Reg) : BitVec 4 := BitVec.ofNat 4 r.val

/-- Format A: `ffff nnnn nnnn nnnn`. -/
def formatA (family : BitVec 4) (nnn : Addr) : Word := family ++ nnn

/-- Format XB: `ffff xxxx nnnn nnnn`. -/
def formatXB (family : BitVec 4) (x : Reg) (nn : Byte) : Word := family ++ (bitsOfReg x ++ nn)

/-- Formats XY and XYN: `ffff xxxx yyyy ssss`. -/
def formatXY (family : BitVec 4) (x y : Reg) (low : BitVec 4) : Word :=
  family ++ (bitsOfReg x ++ (bitsOfReg y ++ low))

/-- Format XS: `ffff xxxx ssss ssss`. -/
def formatXS (family : BitVec 4) (x : Reg) (selector : Byte) : Word := family ++ (bitsOfReg x ++ selector)

/-- The word of a well-formed instruction (R92, R96). -/
def encodeWord : Instr → Word
  | .cls => 0x00E0
  | .ret => 0x00EE
  | .jp nnn => formatA 0x1 nnn
  | .call nnn => formatA 0x2 nnn
  | .seImm x nn => formatXB 0x3 x nn
  | .sneImm x nn => formatXB 0x4 x nn
  | .seReg x y => formatXY 0x5 x y 0x0
  | .ldImm x nn => formatXB 0x6 x nn
  | .addImm x nn => formatXB 0x7 x nn
  | .ldReg x y => formatXY 0x8 x y 0x0
  | .orReg x y => formatXY 0x8 x y 0x1
  | .andReg x y => formatXY 0x8 x y 0x2
  | .xorReg x y => formatXY 0x8 x y 0x3
  | .addReg x y => formatXY 0x8 x y 0x4
  | .subReg x y => formatXY 0x8 x y 0x5
  | .shr x y => formatXY 0x8 x y 0x6
  | .subnReg x y => formatXY 0x8 x y 0x7
  | .shl x y => formatXY 0x8 x y 0xE
  | .sneReg x y => formatXY 0x9 x y 0x0
  | .ldI nnn => formatA 0xA nnn
  | .jpV0 nnn => formatA 0xB nnn
  | .rnd x nn => formatXB 0xC x nn
  | .drw x y n => formatXY 0xD x y (BitVec.ofNat 4 n)
  | .skp x => formatXS 0xE x 0x9E
  | .sknp x => formatXS 0xE x 0xA1
  | .ldVxDt x => formatXS 0xF x 0x07
  | .ldVxK x => formatXS 0xF x 0x0A
  | .ldDtVx x => formatXS 0xF x 0x15
  | .ldStVx x => formatXS 0xF x 0x18
  | .addI x => formatXS 0xF x 0x1E
  | .ldF x => formatXS 0xF x 0x29
  | .ldB x => formatXS 0xF x 0x33
  | .ldMemVx x => formatXS 0xF x 0x55
  | .ldVxMem x => formatXS 0xF x 0x65

/-- The bytes of a word as memory holds them, high byte first (R67, R91). -/
def bytesOfWord (w : Word) : List Byte := [w.extractLsb' 8 8, w.extractLsb' 0 8]

/-- The bytes of a well-formed instruction. -/
def encode (i : Instr) : List Byte := bytesOfWord (encodeWord i)

/-- The instruction decoded from the word `w` whose low `nbits` bits are numbered as spec/opcode_table.json numbers them
(bit 0 the least significant bit of the one 16-bit word), through the bytes memory would hold. -/
def decodeTableWord (nbits w : Nat) : Option Instr :=
  match decode (bytesOfWord (BitVec.ofNat 16 (w % 2 ^ nbits))) with
  | .ok (i, _) => some i
  | .error _ => none

end Sys2Proof
end

