-- ==== Sys2Proof/Machine/Font.lean ====
section
/-! DEFINITION. The built-in font, the one parameter of the model (10_state.md R34): the spec's default table. -/

namespace Sys2Proof.Machine

/-- `FONT[0..79]`, five bytes a glyph, top row first, glyph `d` at `5 d` (R34). The source gives no values: PRESUMED, the
default table the spec takes from general knowledge (D12, GK1). Unsafe for claims that read glyph bytes: log entry 3. -/
def font : List Byte :=
  [0xF0, 0x90, 0x90, 0x90, 0xF0, 0x20, 0x60, 0x20, 0x20, 0x70, 0xF0, 0x10, 0xF0, 0x80, 0xF0, 0xF0, 0x10, 0xF0, 0x10, 0xF0] ++
  [0x90, 0x90, 0xF0, 0x10, 0x10, 0xF0, 0x80, 0xF0, 0x10, 0xF0, 0xF0, 0x80, 0xF0, 0x90, 0xF0, 0xF0, 0x10, 0x20, 0x40, 0x40] ++
  [0xF0, 0x90, 0xF0, 0x90, 0xF0, 0xF0, 0x90, 0xF0, 0x10, 0xF0, 0xF0, 0x90, 0xF0, 0x90, 0x90, 0xE0, 0x90, 0xE0, 0x90, 0xE0] ++
  [0xF0, 0x80, 0x80, 0x80, 0xF0, 0xE0, 0x90, 0x90, 0x90, 0xE0, 0xF0, 0x80, 0xF0, 0x80, 0xF0, 0xF0, 0x80, 0xF0, 0x80, 0x80]

/-- The byte `FONT[k]`. -/
def fontByte (k : Nat) : Byte := font.getD k 0

end Sys2Proof.Machine
end

