-- ==== Sys2Proof/Machine/State.lean ====
section
/-! DEFINITION. The complete mutable state of the block (10_state.md), its value after reset (R35), and the reasons a step
can stop. -/

namespace Sys2Proof.Machine

/-- The memory `MEM[0..4095]` (R29): the cells that differ from the reset contents (`Memory.background`,
Machine/Memory.lean), addresses strictly rising. -/
abbrev Memory := List Host.Cell

/-- The framebuffer `FB[0..2047]` (R30): 32 rows of 64 one-bit cells, row-major; the cell `FB[k]` is bit `k mod 64` of row
`k div 64` (read and written through `Framebuffer.cell` and `Framebuffer.flip`, Machine/Ops.lean). -/
abbrev Framebuffer := Vector (BitVec 64) 32

/-- The halt cause latch `ERR` (R33). The code 3 never occurs, so it is no value of this type (R203 allows an
enumeration). -/
inductive HaltCause where
  /-- `ERR = 0`: the machine runs. -/
  | running
  /-- `ERR = 1`: a `CALL` found the stack full (R201). -/
  | stackOverflow
  /-- `ERR = 2`: a `RET` found the stack empty (R202). -/
  | stackUnderflow
  deriving DecidableEq, Repr

/-- The state of the block: 10_state.md R20 to R33, and `draws`, which is the model's own. -/
structure State where
  /-- `x[0]` to `x[15]`, the general registers V0 to VF (R20, R21). -/
  v : Vector Byte 16
  /-- `I`, the index register (R22). -/
  i : Word
  /-- `pc`, the program counter (R23). -/
  pc : Word
  /-- `SP`, the number of return addresses on the stack, 0 to 16 in 5 bits (R25). -/
  sp : BitVec 5
  /-- `STK[0]` to `STK[15]`, the call stack (R26). -/
  stk : Vector Word 16
  /-- `DT`, the delay timer (R27). -/
  dt : Byte
  /-- `ST`, the sound timer (R28). -/
  st : Byte
  /-- `MEM`, the memory (R29). -/
  mem : Memory
  /-- `FB`, the framebuffer (R30). -/
  fb : Framebuffer
  /-- `KEY[0]` to `KEY[15]`, the 16-bit latch of the key matrix (R31): bit `k` is `KEY[k]`. -/
  key : BitVec 16
  /-- `DF`, the redraw flag (R32). -/
  df : Bool
  /-- `ERR`, the halt cause latch (R33). -/
  err : HaltCause
  /-- How many bytes have been drawn from the input `rnd` (R39). The model's own field, not state of the block: log
  entry 2. -/
  draws : Nat
  deriving DecidableEq, Repr

/-- Why a step stops with a fault. The conditions the spec describes (R200 to R202) are taken, not stopped on. -/
inductive Fault where
  /-- Raised by `CALL` and `RET` when `SP` is 17 to 31, values R25 calls unreachable: the stack entry they would use does
  not exist. Safe: no state a run reaches gets here. DEDUCED: log entry 5. -/
  | stackPointerOutOfRange
  deriving DecidableEq, Repr

/-- Why a step is refused. -/
inductive Refusal where
  /-- Raised by an arm of `exec` whose instruction has no meaning in the model. Safe. No arm is left that raises it. -/
  | notModelled (mnemonic : String)
  deriving DecidableEq, Repr

/-- The machine right after `initialize()` (R35, R240): every cell at the value of the table of R35. Memory lists nothing:
an unlisted cell reads as its reset contents. `draws` is the model's own (DESIGN CHOICE 0, log entry 2). -/
def State.reset : State where
  v := Vector.replicate 16 0
  i := 0x0000
  pc := 0x0200
  sp := 0
  stk := Vector.replicate 16 0
  dt := 0
  st := 0
  mem := []
  fb := Vector.replicate 32 0
  key := 0
  df := false
  err := .running
  draws := 0

end Sys2Proof.Machine
end

