-- ==== Sys2Proof/Machine/Memory.lean ====
section
/-! DEFINITION. Memory as sparse data in one canonical form, and the access primitives of 20_memory.md (R62 to R64). -/

namespace Sys2Proof.Machine

/-- What a cell that is not listed reads as: the reset contents, the font at 0 to 79 and zero above (R35, R61). -/
def Memory.background (a : Nat) : Byte :=
  if a < Config.fontLen then fontByte a else 0

/-- The cell at `a`, for `a` below 4096. -/
def Memory.cell : Memory → Nat → Byte
  | [], a => Memory.background a
  | (k, b) :: m, a => if k = a then b else Memory.cell m a

/-- `(a, b) :: m`, but for a value the cell reads as anyway, which is not listed. -/
def Memory.cons (a : Nat) (b : Byte) (m : Memory) : Memory :=
  if b = Memory.background a then m else (a, b) :: m

/-- Writes the cell at `a`, for `a` below 4096, keeping the canonical form. -/
def Memory.setCell : Memory → Nat → Byte → Memory
  | [], a, b => Memory.cons a b []
  | (k, c) :: m, a, b =>
    if k < a then (k, c) :: Memory.setCell m a b
    else if k = a then Memory.cons a b m
    else Memory.cons a b ((k, c) :: m)

/-- The entries are at rising addresses from `lo` to 4095, and none says what its cell reads as anyway. -/
def Memory.wfFrom : Nat → Memory → Bool
  | _, [] => true
  | lo, (a, b) :: m => decide (lo ≤ a) && decide (a < Config.memSize) && b != Memory.background a && Memory.wfFrom (a + 1) m

/-- The canonical form: equal memories are equal lists. -/
def Memory.wf (m : Memory) : Bool := Memory.wfFrom 0 m

/-- `MemRead(a, 1)`: any address, reduced modulo 4096 (R62, R65; the spec's choice D3: log entry 6). -/
def State.memRead (s : State) (a : Nat) : Byte := Memory.cell s.mem (a % Config.memSize)

/-- `MemWrite(a, 1, b)`: any address, reduced modulo 4096, none protected (R63, R69; D3, D21: log entries 6 and 8). -/
def State.memWrite (s : State) (a : Nat) (b : Byte) : State :=
  { s with mem := Memory.setCell s.mem (a % Config.memSize) b }

/-- `MemWrite` of each byte in turn at `a`, `a + 1`, ..., each address reduced by itself (R65, R68). -/
def State.writeBytes (s : State) (a : Nat) : List Byte → State
  | [] => s
  | b :: bs => (s.memWrite a b).writeBytes (a + 1) bs

end Sys2Proof.Machine
end

