-- ==== Sys2Proof/Machine/Ops.lean ====
section
/-! DEFINITION. The named operations over the state: registers, framebuffer, keys, stack, program counter, the fetch, and
taking an error condition. -/

namespace Sys2Proof.Machine

/-! ### Registers and the other cells -/

/-- Reads `x[r]` (R20). -/
def State.reg (s : State) (r : Reg) : Byte := s.v[r]

/-- `x[r] <- b` (R20). -/
def State.setReg (s : State) (r : Reg) (b : Byte) : State := { s with v := s.v.set r b }

/-- `I <- w` (R22). -/
def State.setI (s : State) (w : Word) : State := { s with i := w }

/-- `pc <- w` (R23). -/
def State.setPc (s : State) (w : Word) : State := { s with pc := w }

/-- `SP <- n` (R25). -/
def State.setSp (s : State) (n : BitVec 5) : State := { s with sp := n }

/-- Reads `STK[j]` (R26). -/
def State.entry (s : State) (j : Fin 16) : Word := s.stk[j]

/-- `STK[j] <- w` (R26). -/
def State.setEntry (s : State) (j : Fin 16) (w : Word) : State := { s with stk := s.stk.set j w }

/-- `DT <- b` (R27). -/
def State.setDt (s : State) (b : Byte) : State := { s with dt := b }

/-- `ST <- b` (R28). -/
def State.setSt (s : State) (b : Byte) : State := { s with st := b }

/-- `FB <- f`, all cells at once (R30). -/
def State.setFb (s : State) (f : Framebuffer) : State := { s with fb := f }

/-- `DF <- b` (R32). -/
def State.setDf (s : State) (b : Bool) : State := { s with df := b }

/-- `KEY <- k`, all cells at once (R31). -/
def State.setKeys (s : State) (k : BitVec 16) : State := { s with key := k }

/-- One more byte has been drawn from `rnd` (R39, log entry 2). -/
def State.countDraw (s : State) : State := { s with draws := s.draws + 1 }

/-- Whether key `k` is pressed: `KEY[k] = 1` (R31). -/
def State.pressed (s : State) (k : Fin 16) : Bool := s.key.getLsbD k.val

/-! ### The framebuffer (R30) -/

/-- `FB[k]`. -/
def Framebuffer.cell (f : Framebuffer) (k : Fin 2048) : Bool :=
  f[k.val / 64].getLsbD (k.val % 64)

/-- `FB[k] <- FB[k] ^ 1`. -/
def Framebuffer.flip (f : Framebuffer) (k : Fin 2048) : Framebuffer :=
  f.set (k.val / 64) (f[k.val / 64] ^^^ BitVec.twoPow 64 (k.val % 64))

/-- All cells 0. -/
def Framebuffer.blank : Framebuffer := Vector.replicate 32 0

/-- `FB[k]` of a state. -/
def State.pixel (s : State) (k : Fin 2048) : Bool := Framebuffer.cell s.fb k

/-! ### The program counter (R23, R24) -/

/-- `pc <- (pc + 2) mod 65536` (R24). -/
def State.advance (s : State) : State := s.setPc (s.pc + 2)

/-- `pc <- (pc + (c ? 4 : 2)) mod 65536`: a skip steps over one instruction, which it does not look at (41_skip.md). -/
def State.skipIf (s : State) (c : Bool) : State := s.setPc (s.pc + if c then 4 else 2)

/-! ### Error conditions (60_exceptions.md) -/

/-- `raise`: the instruction is abandoned with no state change but `ERR <- cause` (R11, R201, R202, R205). `pc` keeps the
address of the faulting instruction; nothing is saved, no mode changes, and there is no handler to go to. The spec's choice
D6 between its source's two policies: log entry 7. There is no return: only a reset clears `ERR` (R206). -/
def State.raise (s : State) (cause : HaltCause) : State := { s with err := cause }

/-! ### The call stack (R25, R26) -/

/-- `STK[SP] <- pc; SP <- SP + 1`, when there is a free entry. -/
def State.push (s : State) : Option State :=
  if h : s.sp.toNat < 16 then some ((s.setEntry ⟨s.sp.toNat, h⟩ s.pc).setSp (s.sp + 1)) else none

/-- `SP <- SP - 1`, and the entry `STK[SP]` read with the new SP, when there is one. The entry keeps its value (R26). -/
def State.pop (s : State) : Option (Word × State) :=
  if h : 0 < s.sp.toNat ∧ s.sp.toNat ≤ 16 then
    some (s.entry ⟨s.sp.toNat - 1, by omega⟩, s.setSp (s.sp - 1))
  else none

/-! ### The fetch -/

/-- `MemRead(pc, 2)`: two independent byte reads, the byte at the lower address first and most significant, any alignment
(R64, R90). -/
def State.fetchWord (s : State) : Word :=
  wordOfBytes (s.memRead s.pc.toNat) (s.memRead (s.pc.toNat + 1))

/-- Lays the two bytes of `w` where the next fetch reads them (R64). -/
def State.placeWord (s : State) (w : Word) : State := s.writeBytes s.pc.toNat (bytesOfWord w)

end Sys2Proof.Machine
end

