-- ==== Sys2Proof/Machine/Operands.lean ====
section
/-! DEFINITION. The operand forms (30_encoding.md R93, 43_index_memory.md, 44_display.md, 45_keys_timers.md): immediates,
the index-register addresses, groups of registers, the key a register names, decimal digits, sprite geometry. -/

namespace Sys2Proof.Machine

/-- An address immediate `NNN`, zero-extended to 16 bits (R93). -/
def zextAddr (nnn : Addr) : Word := nnn.setWidth 16

/-- A register value zero-extended to 16 bits, for arithmetic on `I` and `pc`. -/
def zextByte (b : Byte) : Word := b.setWidth 16

/-- The unreduced effective address `I + offset` (43_index_memory.md; R65). Memory reduces it modulo 4096. -/
def State.indexed (s : State) (offset : Nat) : Nat := s.i.toNat + offset

/-- The register numbers 0 to 15 in ascending order. -/
def allRegs : List Reg := [0, 1, 2, 3, 4, 5, 6, 7, 8, 9, 10, 11, 12, 13, 14, 15]

/-- The registers V0 to VX, for the group forms `LD [I],Vx` and `LD Vx,[I]` (R164, R165). -/
def regsUpTo (x : Reg) : List Reg := allRegs.take (x.val + 1)

/-- `I + X + 1`, what the group forms leave in `I` (R164, R165), modulo 65536. -/
def State.indexAfter (s : State) (x : Reg) : Word := s.i + BitVec.ofNat 16 (x.val + 1)

/-- `for i = 0, ..., X: x[i] <- MemRead(I + i, 1)` over the registers listed; `I` is none of them (R165). -/
def State.loadRegs (s : State) : List Reg → State
  | [] => s
  | r :: rs => (s.setReg r (s.memRead (s.indexed r.val))).loadRegs rs

/-- The key a register value names: its low four bits (R180, R181; the spec's choice D13: log entry 13). -/
def keyOf (b : Byte) : Fin 16 := regOfBits (b.setWidth 4)

/-- The scan of `LD Vx,K` (R183): keys 0 to 15 ascending, the last pressed one wins. -/
def State.scanKeys (s : State) : Option (Fin 16) :=
  allRegs.foldl (fun found k => if s.pressed k then some k else found) none

/-- The decimal digits of a byte, hundreds first (R163, R67). -/
def bcdDigits (b : Byte) : List Byte :=
  [BitVec.ofNat 8 (b.toNat / 100), BitVec.ofNat 8 (b.toNat / 10 % 10), BitVec.ofNat 8 (b.toNat % 10)]

/-- The address of the glyph of a digit, `x[X] * 5`; the whole 8-bit value is used (R162). -/
def glyphAddr (b : Byte) : Word := zextByte b * 5

/-- The framebuffer cell of sprite pixel `(row, col)` drawn at `(vx, vy)`, both coordinates wrapping (R172). -/
def pixelIndex (vx vy row col : Nat) : Fin 2048 :=
  ⟨(vy + row) % 32 * 64 + (vx + col) % 64, by omega⟩

/-- Column `col` of a sprite byte: the most significant bit is the leftmost pixel (R172; the spec takes the bit order from
general knowledge, D11: log entry 12). -/
def spriteBit (b : Byte) (col : Nat) : Bool := b.getLsbD (7 - col)

end Sys2Proof.Machine
end

