-- ==== Sys2Proof/Machine/Flags.lean ====
section
/-! DEFINITION. The flag VF takes in each of the seven instructions that write it (10_state.md R21), as the 8-bit value 0
or 1. -/

namespace Sys2Proof.Machine

/-- A flag stored in the full 8-bit register VF: 1 or 0 (R21). -/
def flagByte (c : Bool) : Byte := if c then 1 else 0

/-- Carry of the 9-bit sum (R139, R146). -/
def carryFlag (a b : Byte) : Byte := flagByte (decide (a.toNat + b.toNat > 255))

/-- The complement of borrow of `a - b`: 1 exactly when `b` is not greater than `a` (R139, R147, R149). -/
def noBorrowFlag (a b : Byte) : Byte := flagByte (decide (b.toNat ≤ a.toNat))

/-- The bit a right shift moves out: bit 0 (R148). -/
def shiftedOutRight (a : Byte) : Byte := flagByte (a.getLsbD 0)

/-- The bit a left shift moves out: bit 7 (R150). -/
def shiftedOutLeft (a : Byte) : Byte := flagByte (a.getLsbD 7)

/-- 1 when the unreduced sum `I + Vx` passes 0xFFF (R161). -/
def indexPastFlag (i : Word) (b : Byte) : Byte := flagByte (decide (i.toNat + b.toNat > 0xFFF))

/-- 1 when a drawing cleared a lit cell (R171). -/
def collisionFlag (hit : Bool) : Byte := flagByte hit

end Sys2Proof.Machine
end

