-- ==== Sys2Proof/Machine/Alu.lean ====
section
/-! DEFINITION. Load, arithmetic, logic, shift and random instructions (42_alu.md R139 to R151). -/

namespace Sys2Proof.Machine

open Host (Outcome)

/-- `x[X] <- b; pc <- pc + 2`: the end of every instruction that writes one register and no flag. -/
def State.writeAndAdvance (s : State) (x : Reg) (b : Byte) : State := (s.setReg x b).advance

/-- The flag-writing instructions of R146 to R150: `x[15]` is written first, from the values at entry; then the operands
are read again and the result is written; then `pc` advances (R9, R139; the spec's choice D9: log entry 14). -/
def State.flagThenResult (s : State) (flag : Byte → Byte → Byte) (result : Byte → Byte → Byte) (x y : Reg) : State :=
  let s₁ := s.setReg VF (flag (s.reg x) (s.reg y))
  s₁.writeAndAdvance x (result (s₁.reg x) (s₁.reg y))

/-- `LD Vx, nn` (R140). -/
def execLdImm (x : Reg) (nn : Byte) (s : State) : Outcome State Fault Refusal :=
  .next (s.writeAndAdvance x nn)

/-- `ADD Vx, nn` (R141): wraps, no flag. -/
def execAddImm (x : Reg) (nn : Byte) (s : State) : Outcome State Fault Refusal :=
  .next (s.writeAndAdvance x (s.reg x + nn))

/-- `LD Vx, Vy` (R142). -/
def execLdReg (x y : Reg) (s : State) : Outcome State Fault Refusal :=
  .next (s.writeAndAdvance x (s.reg y))

/-- `OR Vx, Vy` (R143). -/
def execOrReg (x y : Reg) (s : State) : Outcome State Fault Refusal :=
  .next (s.writeAndAdvance x (s.reg x ||| s.reg y))

/-- `AND Vx, Vy` (R144). -/
def execAndReg (x y : Reg) (s : State) : Outcome State Fault Refusal :=
  .next (s.writeAndAdvance x (s.reg x &&& s.reg y))

/-- `XOR Vx, Vy` (R145). -/
def execXorReg (x y : Reg) (s : State) : Outcome State Fault Refusal :=
  .next (s.writeAndAdvance x (s.reg x ^^^ s.reg y))

/-- `ADD Vx, Vy` (R146): VF = carry. -/
def execAddReg (x y : Reg) (s : State) : Outcome State Fault Refusal :=
  .next (s.flagThenResult carryFlag (fun a b => a + b) x y)

/-- `SUB Vx, Vy` (R147): VF = not borrow of `Vx - Vy`. -/
def execSubReg (x y : Reg) (s : State) : Outcome State Fault Refusal :=
  .next (s.flagThenResult noBorrowFlag (fun a b => a - b) x y)

/-- `SHR Vx` (R148): VF = the old bit 0; the field `Y` is ignored (R97). -/
def execShr (x _y : Reg) (s : State) : Outcome State Fault Refusal :=
  .next (s.flagThenResult (fun a _ => shiftedOutRight a) (fun a _ => a >>> 1) x x)

/-- `SUBN Vx, Vy` (R149): VF = not borrow of `Vy - Vx`. -/
def execSubnReg (x y : Reg) (s : State) : Outcome State Fault Refusal :=
  .next (s.flagThenResult (fun a b => noBorrowFlag b a) (fun a b => b - a) x y)

/-- `SHL Vx` (R150): VF = the old bit 7; the field `Y` is ignored (R97). -/
def execShl (x _y : Reg) (s : State) : Outcome State Fault Refusal :=
  .next (s.flagThenResult (fun a _ => shiftedOutLeft a) (fun a _ => a <<< 1) x x)

/-- `RND Vx, nn` for one drawn byte `r` (R151). -/
def rndWith (r : Byte) (x : Reg) (nn : Byte) (s : State) : State :=
  s.writeAndAdvance x (r &&& nn)

/-- `RND Vx, nn` (R151): the draw is the free value `Config.rndByte` at the count of draws so far (R12, R39, log entry 2). -/
def execRnd (x : Reg) (nn : Byte) (s : State) : Outcome State Fault Refusal :=
  .next (rndWith (Config.rndByte s.draws) x nn s.countDraw)

end Sys2Proof.Machine
end

