-- ==== Sys2Proof/Machine/Display.lean ====
section
/-! DEFINITION. The draw unit and the display instructions (44_display.md R170 to R172). -/

namespace Sys2Proof.Machine

open Host (Outcome)

/-- What a drawing works on: the framebuffer, and whether a lit cell has been cleared (R171's `hit`). -/
structure Canvas where
  fb : Framebuffer
  hit : Bool
  deriving DecidableEq, Repr

/-- One sprite pixel (R171): a 1 bit flips its cell, and is a hit if the cell was lit. -/
def Canvas.drawPixel (c : Canvas) (lit : Bool) (k : Fin 2048) : Canvas :=
  if lit then ⟨Framebuffer.flip c.fb k, c.hit || Framebuffer.cell c.fb k⟩ else c

/-- One sprite row: columns 0 to 7 ascending (R171). -/
def Canvas.drawRow (c : Canvas) (vx vy row : Nat) (b : Byte) : Canvas :=
  [0, 1, 2, 3, 4, 5, 6, 7].foldl (fun c col => c.drawPixel (spriteBit b col) (pixelIndex vx vy row col)) c

/-- Rows `row`, `row + 1`, ... of a sprite, one for each byte (R171). -/
def Canvas.drawRows (c : Canvas) (vx vy row : Nat) : List Byte → Canvas
  | [] => c
  | b :: bs => (c.drawRow vx vy row b).drawRows vx vy (row + 1) bs

/-- The `n` sprite bytes at `I`, `I + 1`, ..., each address reduced by itself (R171, R172, R65). -/
def State.spriteRows (s : State) (n : Nat) : List Byte :=
  (List.range n).map fun row => s.memRead (s.indexed row)

/-- The drawing of `DRW Vx, Vy, n` from the values at entry: both coordinates are sampled before VF is written (R171; the
spec's choice D10: log entry 14). -/
def State.drawing (s : State) (x y : Reg) (n : Nat) : Canvas :=
  (Canvas.mk s.fb false).drawRows (s.reg x).toNat (s.reg y).toNat 0 (s.spriteRows n)

/-- `CLS` (R170): all cells 0, `DF` set. -/
def execCls (s : State) : Outcome State Fault Refusal :=
  .next ((s.setFb Framebuffer.blank).setDf true).advance

/-- `DRW Vx, Vy, n` (R171): the sprite is XORed in, VF is the collision flag, `DF` is set always. -/
def execDrw (x y : Reg) (n : Nat) (s : State) : Outcome State Fault Refusal :=
  let c := s.drawing x y n
  .next (((s.setFb c.fb).setReg VF (collisionFlag c.hit)).setDf true).advance

end Sys2Proof.Machine
end

