-- ==== Sys2Proof/Machine/Flow.lean ====
section
/-! DEFINITION. Control transfer (40_flow.md R120 to R123), and the no-op an unknown word is (30_encoding.md R100). -/

namespace Sys2Proof.Machine

open Host (Outcome)

/-- `RET` (R120): the stack underflow of R202 when `SP = 0`; else pops, and `pc` is the popped entry plus 2. With `SP`
above 16 (unreachable, R25) the entry does not exist. -/
def execRet (s : State) : Outcome State Fault Refusal :=
  if s.sp = 0 then .next (s.raise .stackUnderflow)
  else match s.pop with
    | some (w, s') => .next (s'.setPc (w + 2))
    | none => .fault .stackPointerOutOfRange

/-- `JP nnn` (R121). -/
def execJp (nnn : Addr) (s : State) : Outcome State Fault Refusal :=
  .next (s.setPc (zextAddr nnn))

/-- `CALL nnn` (R122): the stack overflow of R201 when `SP = 16`; else pushes `pc` itself and jumps. With `SP` above 16
(unreachable, R25) the entry does not exist. -/
def execCall (nnn : Addr) (s : State) : Outcome State Fault Refusal :=
  if s.sp = 16 then .next (s.raise .stackOverflow)
  else match s.push with
    | some s' => .next (s'.setPc (zextAddr nnn))
    | none => .fault .stackPointerOutOfRange

/-- `JP V0, nnn` (R123): the sum keeps all 16 bits. -/
def execJpV0 (nnn : Addr) (s : State) : Outcome State Fault Refusal :=
  .next (s.setPc (zextAddr nnn + zextByte (s.reg 0)))

/-- An unknown word (R100): a no-op that advances `pc` by 2 and changes nothing else. It is no row of the opcode table, so
no arm of `exec`; `step` runs it when the decoder finds no instruction. The spec's choice D7: log entry 10. -/
def execUnknown (s : State) : Outcome State Fault Refusal :=
  .next s.advance

end Sys2Proof.Machine
end

