-- ==== Sys2Proof/Machine/IndexMemory.lean ====
section
/-! DEFINITION. Index register and memory instructions (43_index_memory.md R160 to R165). -/

namespace Sys2Proof.Machine

open Host (Outcome)

/-- `LD I, nnn` (R160). -/
def execLdI (nnn : Addr) (s : State) : Outcome State Fault Refusal :=
  .next (s.setI (zextAddr nnn)).advance

/-- `ADD I, Vx` (R161): VF first, from the unreduced sum; then `I` grows by `x[X]` read again (D9: log entry 14), modulo
65536. -/
def execAddI (x : Reg) (s : State) : Outcome State Fault Refusal :=
  let s₁ := s.setReg VF (indexPastFlag s.i (s.reg x))
  .next (s₁.setI (s₁.i + zextByte (s₁.reg x))).advance

/-- `LD F, Vx` (R162). -/
def execLdF (x : Reg) (s : State) : Outcome State Fault Refusal :=
  .next (s.setI (glyphAddr (s.reg x))).advance

/-- `LD B, Vx` (R163): three digits at `I`, which is unchanged. -/
def execLdB (x : Reg) (s : State) : Outcome State Fault Refusal :=
  .next (s.writeBytes (s.indexed 0) (bcdDigits (s.reg x))).advance

/-- `LD [I], Vx` (R164): V0 to VX stored at `I`, `I + 1`, ...; `I` grows by `X + 1`. -/
def execLdMemVx (x : Reg) (s : State) : Outcome State Fault Refusal :=
  .next ((s.writeBytes (s.indexed 0) ((regsUpTo x).map s.reg)).setI (s.indexAfter x)).advance

/-- `LD Vx, [I]` (R165): V0 to VX loaded from `I`, `I + 1`, ...; `I` grows by `X + 1`. -/
def execLdVxMem (x : Reg) (s : State) : Outcome State Fault Refusal :=
  .next ((s.loadRegs (regsUpTo x)).setI (s.indexAfter x)).advance

end Sys2Proof.Machine
end

