-- ==== Sys2Proof/Machine/KeysTimers.lean ====
section
/-! DEFINITION. Key and timer instructions (45_keys_timers.md R180 to R185). -/

namespace Sys2Proof.Machine

open Host (Outcome)

/-- `SKP Vx` (R180). -/
def execSkp (x : Reg) (s : State) : Outcome State Fault Refusal :=
  .next (s.skipIf (s.pressed (keyOf (s.reg x))))

/-- `SKNP Vx` (R181). -/
def execSknp (x : Reg) (s : State) : Outcome State Fault Refusal :=
  .next (s.skipIf (!s.pressed (keyOf (s.reg x))))

/-- `LD Vx, DT` (R182). -/
def execLdVxDt (x : Reg) (s : State) : Outcome State Fault Refusal :=
  .next (s.setReg x s.dt).advance

/-- `LD Vx, K` (R183): the highest pressed key, or no state change at all, so that the next step runs it again. -/
def execLdVxK (x : Reg) (s : State) : Outcome State Fault Refusal :=
  match s.scanKeys with
  | some k => .next (s.setReg x (BitVec.ofNat 8 k.val)).advance
  | none => .next s

/-- `LD DT, Vx` (R184). -/
def execLdDtVx (x : Reg) (s : State) : Outcome State Fault Refusal :=
  .next (s.setDt (s.reg x)).advance

/-- `LD ST, Vx` (R185). -/
def execLdStVx (x : Reg) (s : State) : Outcome State Fault Refusal :=
  .next (s.setSt (s.reg x)).advance

end Sys2Proof.Machine
end

