-- ==== Sys2Proof/Machine/Step.lean ====
section
/-! DEFINITION. The command `step()` (30_encoding.md R90). -/

namespace Sys2Proof.Machine

/-- One fetch-decode-execute cycle (R90): nothing while halted (R204); else the word at `pc` is read whole and decoded, and
an instruction, or the no-op of an unknown word, is executed. No default increment of `pc`, and no timer, is touched. -/
def step (s : State) : Host.Outcome State Fault Refusal :=
  match s.err with
  | .stackOverflow | .stackUnderflow => .next s
  | .running =>
    match decodeWord s.fetchWord with
    | .ok i => exec i s
    | .error _ => execUnknown s

/-- `s` with the 16-bit word `w` (numbered as spec/opcode_table.json numbers it, the bits from `nbits` up zero) laid where
the next step fetches, and running: a halted machine fetches nothing (R204). It stands for the host's loading of a
program: log entry 4. -/
def State.withFetchWord (s : State) (nbits w : Nat) : State :=
  { s.placeWord (BitVec.ofNat 16 (w % 2 ^ nbits)) with err := .running }

end Sys2Proof.Machine
end

