-- ==== Sys2Proof/Machine/Status.lean ====
section
/-! DEFINITION. The status a `step` returns (10_state.md R41, 60_exceptions.md R203). A status is a return value, not
state: it is a function of the state the step starts in. -/

namespace Sys2Proof.Machine

/-- The statuses of `step` (R41). -/
inductive Status where
  | ok
  | waitKey
  | unknownOpcode
  | stackOverflow
  | stackUnderflow
  deriving DecidableEq, Repr

/-- The numeric codes of R203 (the spec's choice D17). -/
def Status.code : Status → Nat
  | .ok => 0
  | .waitKey => 1
  | .unknownOpcode => 2
  | .stackOverflow => 3
  | .stackUnderflow => 4

/-- The 2-bit code of `ERR` (R33, R203). -/
def HaltCause.code : HaltCause → BitVec 2
  | .running => 0
  | .stackOverflow => 1
  | .stackUnderflow => 2

/-- The status the rule of instruction `i` names when it runs in `s` (R203): `OK` but for `CALL` and `RET` that raise
(R120, R122) and `LD Vx,K` with no key pressed (R183). -/
def instrStatus (i : Instr) (s : State) : Status :=
  match i with
  | .call _ => if s.sp = 16 then .stackOverflow else .ok
  | .ret => if s.sp = 0 then .stackUnderflow else .ok
  | .ldVxK _ => if s.scanKeys.isSome then .ok else .waitKey
  | .cls | .jp _ | .jpV0 _ | .ldI _ => .ok
  | .seImm _ _ | .sneImm _ _ | .ldImm _ _ | .addImm _ _ | .rnd _ _ => .ok
  | .seReg _ _ | .sneReg _ _ | .ldReg _ _ | .orReg _ _ | .andReg _ _ | .xorReg _ _ => .ok
  | .addReg _ _ | .subReg _ _ | .shr _ _ | .subnReg _ _ | .shl _ _ | .drw _ _ _ => .ok
  | .skp _ | .sknp _ | .ldVxDt _ | .ldDtVx _ | .ldStVx _ => .ok
  | .addI _ | .ldF _ | .ldB _ | .ldMemVx _ | .ldVxMem _ => .ok

/-- The status `step()` returns (R90): the latched cause while halted (R204), `UNKNOWN_OPCODE` for an unknown word (R100),
else what the instruction's rule names. -/
def stepStatus (s : State) : Status :=
  match s.err with
  | .stackOverflow => .stackOverflow
  | .stackUnderflow => .stackUnderflow
  | .running =>
    match decodeWord s.fetchWord with
    | .ok i => instrStatus i s
    | .error _ => .unknownOpcode

end Sys2Proof.Machine
end

