-- ==== Sys2Proof/Machine/Cells.lean ====
section
/-! DEFINITION. The cells of state of 10_state.md one by one, so that a claim can say which of them an instruction leaves
unchanged (the frame rule, 00_scope.md R10). -/

namespace Sys2Proof.Machine

/-- A cell of the block's state, in the names of R7. -/
inductive Cell where
  | v (r : Reg)
  | i
  | pc
  | sp
  | stk (j : Fin 16)
  | dt
  | st
  | mem (a : Fin 4096)
  | fb (k : Fin 2048)
  | key (k : Fin 16)
  | df
  | err
  deriving DecidableEq, Repr

/-- What a cell holds, as the unsigned integer R6 says every value is. -/
def State.cell (s : State) : Cell → Nat
  | .v r => (s.reg r).toNat
  | .i => s.i.toNat
  | .pc => s.pc.toNat
  | .sp => s.sp.toNat
  | .stk j => (s.entry j).toNat
  | .dt => s.dt.toNat
  | .st => s.st.toNat
  | .mem a => (s.memRead a.val).toNat
  | .fb k => (s.pixel k).toNat
  | .key k => (s.pressed k).toNat
  | .df => s.df.toNat
  | .err => s.err.code.toNat

/-- Every cell but those of `written` holds in `t` what it holds in `s` (R10). -/
def UnchangedBut (written : Cell → Prop) (s t : State) : Prop :=
  ∀ c, ¬ written c → t.cell c = s.cell c

/-- The memory cell an unreduced address reaches (R62, R65). -/
def memCell (a : Nat) : Cell := .mem ⟨a % 4096, Nat.mod_lt _ (by decide)⟩

end Sys2Proof.Machine
end

