-- ==== Sys2Proof/Machine/Commands.lean ====
section
/-! DEFINITION. The host's commands (00_scope.md R13 to R15): one labelled transition per command, each atomic. The
`step` of the host's `Core` is the command `step()` alone; a run in which the host also ticks the timers or presses keys
is a run of commands (log entry 1). -/

namespace Sys2Proof.Machine

open Host (Outcome)

/-! ### Reset and loading (70_reset_and_hazards.md) -/

/-- `initialize()` (R240), which the reset input performs too: every cell of the block at its reset value. The count of
draws is no cell of the block and goes on (R39). -/
def State.initialized (s : State) : State := { State.reset with draws := s.draws }

/-- The status of `loadProgram` (R41, R203). -/
inductive LoadStatus where
  | ok
  | romTooLarge
  deriving DecidableEq, Repr

/-- The numeric codes of R203 (D17). -/
def LoadStatus.code : LoadStatus → Nat
  | .ok => 0
  | .romTooLarge => 1

/-- `loadProgram(bytes)` (R242): resets; then copies the image to 0x200 upward, or copies nothing if it is larger than
3584 bytes. -/
def State.loadProgram (s : State) (bytes : List Byte) : State × LoadStatus :=
  if imageFits bytes then (s.initialized.writeBytes Config.progBase bytes, .ok)
  else (s.initialized, .romTooLarge)

/-! ### The timer tick (60_exceptions.md R215, R216) -/

/-- The notification a tick returns (R216). -/
inductive Notification where
  | none
  | off
  | on
  deriving DecidableEq, Repr

/-- The numeric codes of R203 (D17). -/
def Notification.code : Notification → Nat
  | .none => 0
  | .off => 1
  | .on => 2

/-- A timer one tick later: decremented, floored at 0 (R215). -/
def tick (b : Byte) : Byte := if b = 0 then 0 else b - 1

/-- `updateTimers()` (R215), and its notification: `on` when the sound timer is still positive after the tick, `off` when
the tick took it from 1 to 0, none when it was 0 (R216; the spec's choice D16: log entry 15). -/
def State.updateTimers (s : State) : State × Notification :=
  ((s.setDt (tick s.dt)).setSt (tick s.st),
    if s.st = 0 then .none else if tick s.st = 0 then .off else .on)

/-! ### Keys, redraw flag and the read ports (10_state.md R36 to R40) -/

/-- `setKey(k, v)` (R37): the cell `KEY[k]` and nothing else. -/
def State.setKey (s : State) (k : Fin 16) (v : Bool) : State :=
  s.setKeys (if v then s.key ||| BitVec.twoPow 16 k.val else s.key &&& ~~~(BitVec.twoPow 16 k.val))

/-- `clearDrawFlag()` (R38). -/
def State.clearDrawFlag (s : State) : State := s.setDf false

/-- `readFramebuffer()` (R36): the 2048 cells in index order. -/
def State.readFramebuffer (s : State) : List Bool := (List.finRange 2048).map s.pixel

/-- `sound_on`, what `readSound()` returns (R40): whether the sound timer is positive. -/
def State.soundOn (s : State) : Bool := decide (0 < s.st.toNat)

/-! ### The labelled transitions (R13, R14) -/

/-- The commands of the host (R13). `initializeBlock` is the source's `initialize`. -/
inductive Command where
  | initializeBlock
  | loadProgram (bytes : List Byte)
  | step
  | updateTimers
  | setKey (k : Fin 16) (v : Bool)
  | clearDrawFlag
  | readFramebuffer
  | readKey (k : Fin 16)
  | readDrawFlag
  | readSound
  deriving DecidableEq, Repr

/-- What a command returns to the host (R36 to R41). -/
inductive Response where
  /-- The command returns nothing. -/
  | done
  | stepStatus (s : Status)
  | loadStatus (s : LoadStatus)
  | notification (n : Notification)
  | framebuffer (cells : List Bool)
  | bit (b : Bool)
  deriving DecidableEq, Repr

/-- One command, as one atomic transition with what it returns (R13). Commands work the same while the machine is halted,
but for `step` (R204). -/
def command (c : Command) (s : State) : Outcome (State × Response) Fault Refusal :=
  match c with
  | .initializeBlock => .next (s.initialized, .done)
  | .loadProgram bytes => .next ((s.loadProgram bytes).1, .loadStatus (s.loadProgram bytes).2)
  | .step =>
    match Sys2Proof.Machine.step s with
    | .next s' => .next (s', .stepStatus (stepStatus s))
    | .fault r => .fault r
    | .refused r => .refused r
  | .updateTimers => .next (s.updateTimers.1, .notification s.updateTimers.2)
  | .setKey k v => .next (s.setKey k v, .done)
  | .clearDrawFlag => .next (s.clearDrawFlag, .done)
  | .readFramebuffer => .next (s, .framebuffer s.readFramebuffer)
  | .readKey k => .next (s, .bit (s.pressed k))
  | .readDrawFlag => .next (s, .bit s.df)
  | .readSound => .next (s, .bit s.soundOn)

/-- A run: commands in the order the host chose (R14), and what each returned. -/
def runCommands : List Command → State → Outcome (State × List Response) Fault Refusal
  | [], s => .next (s, [])
  | c :: cs, s =>
    match command c s with
    | .next (s', r) =>
      match runCommands cs s' with
      | .next (t, rs) => .next (t, r :: rs)
      | .fault e => .fault e
      | .refused e => .refused e
    | .fault e => .fault e
    | .refused e => .refused e

end Sys2Proof.Machine
end

