-- ==== Sys2Proof/Safety.lean ====
section
/-! DEFINITION. What a legal state, a fault state, the end of a run and a safe run are. -/

namespace Sys2Proof.Machine

/-- The invariant of the machine: memory is in its canonical form, and `SP` is one of its reachable values 0 to 16
(R25). -/
def State.Inv (s : State) : Prop := Memory.wf s.mem = true ∧ s.sp.toNat ≤ 16

/-- The machine is halted (R204): a fault state, never the end of a successful run. -/
def State.halted (s : State) : Prop := s.err ≠ .running

/-- The end of a run the spec suggests (R17): not halted, and the instruction at `pc` is a jump to itself. -/
def State.atEnd (s : State) : Prop :=
  s.err = .running ∧ s.pc.toNat ≤ 0xFFF ∧ s.fetchWord.toNat = 0x1000 + s.pc.toNat

/-- A successful run of commands (R204): every command answers a next state, and no state of the run is halted, the one it
starts in and the one it ends in among them. A run that raises is none, even if a later command resets the machine. -/
def SafeRun : List Command → State → Prop
  | [], s => ¬ s.halted
  | c :: cs, s => ¬ s.halted ∧ ∃ t r, command c s = .next (t, r) ∧ SafeRun cs t

end Sys2Proof.Machine
end

