-- ==== Sys2Proof/Certificates/Slice0/Obligations.lean ====
section
/-! DEFINITION. The statements for the provers. `D<n>` is a choice the spec marks as its own (spec/92_eei_decisions.md); a
statement that rests on one says so. A frame is said with `UnchangedBut`: every cell of state not named keeps its value. -/

open Sys2Proof Sys2Proof.Machine

/-- Every word of the row `mask`, `opcode` of the opcode map decodes to the instruction `f` makes of its fields. -/
def Sys2Proof.Machine.DecodesAs (mask opcode : Word) (f : Word → Instr) : Prop :=
  ∀ w, w &&& mask = opcode → decodeWord w = .ok (f w)

/-! ### Reset and the invariant -/

/-- R35, cell by cell: `pc` 0x200, the font at 0 to 79, everything else 0. The zero of `DF` and of `ERR` is the spec's
choice D15 (log entry 9), the bytes of the font are its parameter (D12: log entry 3). -/
def Obligations.ResetValueOfEveryCell : Prop :=
  ∀ c : Cell, State.reset.cell c =
    match c with
    | .pc => 0x200
    | .mem a => if a.val < 80 then (fontByte a.val).toNat else 0
    | .v _ | .i | .sp | .stk _ | .dt | .st | .fb _ | .key _ | .df | .err => 0

/-- R240, R241: `initialize()` gives every cell its reset value, from any state, and is idempotent (D2, D15: log entries 1
and 9). -/
def Obligations.InitializeResetsEveryCell : Prop :=
  ∀ s : State, ∃ t, command .initializeBlock s = .next (t, .done) ∧
    (∀ c, t.cell c = State.reset.cell c) ∧ command .initializeBlock t = .next (t, .done)

/-- The invariant holds at reset: canonical memory (the model's form), `SP` at most 16 (R25, D5). -/
def Obligations.ResetSatisfiesInvariant : Prop := State.reset.Inv

/-- Every step keeps memory canonical and `SP` between 0 and 16: R25's "Values 17 to 31 are unreachable" (D5). -/
def Obligations.EveryStepKeepsInvariant : Prop :=
  ∀ s t : State, s.Inv → step s = .next t → t.Inv

/-- Every command of the host keeps the invariant too, loading a program among them (R13, R242). -/
def Obligations.EveryCommandKeepsInvariant : Prop :=
  ∀ (c : Command) (s t : State) (r : Response), s.Inv → command c s = .next (t, r) → t.Inv

/-- R200: nothing else can fail. Where the invariant holds a step answers a next state: no fault and no refusal is ever
reached. The conditions it takes into the state are the spec's choices D6 and D7 (log entries 7 and 10), and that no
memory access faults is its choice D3 (log entry 6). -/
def Obligations.StepAlwaysAnswersNextState : Prop :=
  ∀ s : State, s.Inv → ∃ t, step s = .next t

/-! ### Fetch, decode, dispatch -/

/-- R90: a machine that is not halted fetches two bytes at `pc`, high byte first, each address reduced modulo 4096 by itself
(D3, D25: log entry 6), and runs exactly the instruction they decode to, with no default increment. -/
def Obligations.StepRunsTheFetchedInstruction : Prop :=
  ∀ (s : State) (i : Instr), s.err = .running → decodeWord s.fetchWord = .ok i →
    step s = exec i s ∧ i.wf = true ∧
      s.fetchWord.toNat = (s.memRead (s.pc.toNat % 4096)).toNat * 256 + (s.memRead ((s.pc.toNat + 1) % 4096)).toNat

/-- R100: an unknown word is a no-op that advances `pc` by 2 and reports `UNKNOWN_OPCODE`. The spec's choices D7 (log
entry 10) and, for the status, D29 (log entry 15). -/
def Obligations.UnknownWordOnlyAdvancesPc : Prop :=
  ∀ (s : State) (e : DecodeError), s.err = .running → decodeWord s.fetchWord = .error e →
    ∃ t, step s = .next t ∧ t.pc = s.pc + 2 ∧ UnchangedBut (fun c => c = .pc) s t ∧ stepStatus s = .unknownOpcode

/-- R204: a halted machine steps to itself and reports the latched cause. The spec's choices D6 and D20 (log entry 7)
and, for codes and status, D17 and D29 (log entry 15). -/
def Obligations.HaltedStepChangesNothing : Prop :=
  ∀ s : State, s.halted → step s = .next s ∧
    stepStatus s = (if s.err.code = 1 then .stackOverflow else .stackUnderflow)

/-- The word the model lays down for the host is the word the next step fetches, in any state of the invariant; the
machine runs, and no cell but the two bytes and `ERR` changes (log entry 4; addresses modulo 4096, D3 and D25: log entry
6). -/
def Obligations.PlacedWordIsFetched : Prop :=
  ∀ (s : State) (w : Word), s.Inv →
    (s.withFetchWord 16 w.toNat).fetchWord = w ∧ (s.withFetchWord 16 w.toNat).err = .running ∧
      UnchangedBut (fun c => c = .err ∨ c = memCell s.pc.toNat ∨ c = memCell (s.pc.toNat + 1)) s (s.withFetchWord 16 w.toNat)

/-- Decoding the encoding of a well-formed instruction gives it back, with every operand at every value. -/
def Obligations.DecodeOfEncodeIsIdentity : Prop :=
  ∀ i : Instr, i.wf = true → decodeWord (encodeWord i) = .ok i ∧ ∀ rest, decode (encode i ++ rest) = .ok (i, rest)

/-- What decodes is well-formed, and encodes to the word it came from: no bit is dropped, the ignored `Y` of the shifts
(R97) included. It rests on the spec's choice D8 (log entry 11): 5xyN and 9xyN with N not 0, 0nE0 and 0nEE with n not 0
are unknown words. -/
def Obligations.EncodeOfDecodeIsIdentity : Prop :=
  ∀ (w : Word) (i : Instr), decodeWord w = .ok i → i.wf = true ∧ encodeWord i = w

/-- R96: the two-step decoder is the opcode map, whose masks compare every literal nibble (D8: log entry 11). A word that decodes matches the row of its instruction and no other; a
word that does not matches none. -/
def Obligations.DecoderIsTheOpcodeMap : Prop :=
  (∀ i : Instr, i.row ∈ opcodeMap) ∧ opcodeMap.length = 34 ∧
  (∀ r₁ ∈ opcodeMap, ∀ r₂ ∈ opcodeMap, ∀ w, r₁.covers w = true → r₂.covers w = true → r₁ = r₂) ∧
  ∀ w : Word,
    match decodeWord w with
    | .ok i => ∀ r ∈ opcodeMap, (r.covers w = true ↔ r = i.row)
    | .error e => e = .unknownWord w ∧ ∀ r ∈ opcodeMap, r.covers w = false

/-- R101: the unknown words, family by family; the choices are the spec's, D8 (log entry 11) and for 0nnn D24 (log entry
10). -/
def Obligations.UnknownWordsAreExactlyThese : Prop :=
  ∀ w : Word, decodeWord w = .error (.unknownWord w) ↔
    (familyOf w = 0 ∧ w ≠ 0x00E0 ∧ w ≠ 0x00EE) ∨
    (familyOf w = 5 ∧ fieldN w ≠ 0) ∨
    (familyOf w = 8 ∧ fieldN w ∈ [8, 9, 0xA, 0xB, 0xC, 0xD, 0xF]) ∨
    (familyOf w = 9 ∧ fieldN w ≠ 0) ∨
    (familyOf w = 0xE ∧ (fieldNN w).toNat ∉ [0x9E, 0xA1]) ∨
    (familyOf w = 0xF ∧ (fieldNN w).toNat ∉ [0x07, 0x0A, 0x15, 0x18, 0x1E, 0x29, 0x33, 0x55, 0x65])

/-- One word of each family, written out bit by bit from the formats of R92 and the opcode map of R96. -/
def Obligations.SampleWordsDecode : Prop :=
  decodeWord 0b0000000011100000 = .ok .cls ∧ decodeWord 0b0000000011101110 = .ok .ret ∧
  decodeWord 0b0010101010111100 = .ok (.call 0xABC) ∧ decodeWord 0b0110000101000010 = .ok (.ldImm 1 0x42) ∧
  decodeWord 0b1000000000010100 = .ok (.addReg 0 1) ∧ decodeWord 0b1001001101000000 = .ok (.sneReg 3 4) ∧
  decodeWord 0b1101000000010010 = .ok (.drw 0 1 2) ∧ decodeWord 0b1110001010100001 = .ok (.sknp 2) ∧
  decodeWord 0b1111000101010101 = .ok (.ldMemVx 1)

/-! ### Control transfer -/

/-- R121: `JP nnn`. -/
def Obligations.JumpSetsPcToAddress : Prop :=
  DecodesAs 0xF000 0x1000 (fun w => .jp (fieldNNN w)) ∧
  ∀ (nnn : Addr) (s : State), ∃ t, exec (.jp nnn) s = .next t ∧
    t.pc.toNat = nnn.toNat ∧ UnchangedBut (fun c => c = .pc) s t

/-- R123: `JP V0, nnn`: the sum is not reduced to 12 bits (D4: log entry 17). -/
def Obligations.JumpV0AddsV0WithoutReduction : Prop :=
  ∀ (nnn : Addr) (s : State), ∃ t, exec (.jpV0 nnn) s = .next t ∧
    t.pc.toNat = nnn.toNat + (s.reg 0).toNat ∧ UnchangedBut (fun c => c = .pc) s t

/-- R122 with room on the stack: `CALL nnn` pushes its own address and jumps (SP as an index, D5: log entry 18). -/
def Obligations.CallPushesItsOwnAddress : Prop :=
  ∀ (nnn : Addr) (s : State) (h : s.sp.toNat < 16), ∃ t, exec (.call nnn) s = .next t ∧
    t.entry ⟨s.sp.toNat, h⟩ = s.pc ∧ t.sp.toNat = s.sp.toNat + 1 ∧ t.pc.toNat = nnn.toNat ∧
    UnchangedBut (fun c => c = .stk ⟨s.sp.toNat, h⟩ ∨ c = .sp ∨ c = .pc) s t

/-- R201: `CALL` on a full stack changes nothing but `ERR`, which becomes 1, and reports it. The spec's choices D6 (log
entry 7) and, for code and status, D17 and D29 (log entry 15). -/
def Obligations.CallOnFullStackOnlySetsErr : Prop :=
  ∀ (nnn : Addr) (s : State), s.sp = 16 → ∃ t, exec (.call nnn) s = .next t ∧
    t.err = .stackOverflow ∧ t.err.code = 1 ∧ UnchangedBut (fun c => c = .err) s t ∧
    instrStatus (.call nnn) s = .stackOverflow

/-- R120 with an entry on the stack: `RET` goes to the popped entry plus 2 and leaves the entry in place (D28; SP as a
count, D5: log entry 18). -/
def Obligations.ReturnGoesToEntryPlusTwo : Prop :=
  ∀ (s : State) (h : 0 < s.sp.toNat ∧ s.sp.toNat ≤ 16), ∃ t, exec .ret s = .next t ∧
    t.sp.toNat = s.sp.toNat - 1 ∧
    t.pc.toNat = ((s.entry ⟨s.sp.toNat - 1, by omega⟩).toNat + 2) % 65536 ∧
    UnchangedBut (fun c => c = .sp ∨ c = .pc) s t

/-- R202: `RET` on an empty stack changes nothing but `ERR`, which becomes 2, and reports it. The spec's choices D6 (log
entry 7) and, for code and status, D17 and D29 (log entry 15). -/
def Obligations.ReturnOnEmptyStackOnlySetsErr : Prop :=
  ∀ s : State, s.sp = 0 → ∃ t, exec .ret s = .next t ∧
    t.err = .stackUnderflow ∧ t.err.code = 2 ∧ UnchangedBut (fun c => c = .err) s t ∧
    instrStatus .ret s = .stackUnderflow

/-- R120 with R122: from any later state with the stack and `SP` as the `CALL` left them, `RET` comes back to the
instruction after the `CALL`, with `SP` as before it; it leaves the popped entry in place (D28: log entry 18). -/
def Obligations.ReturnComesBackAfterCall : Prop :=
  ∀ (nnn : Addr) (s t u : State), s.sp.toNat < 16 → exec (.call nnn) s = .next t → u.stk = t.stk → u.sp = t.sp →
    ∃ v, exec .ret u = .next v ∧ v.pc = s.pc + 2 ∧ v.sp = s.sp ∧ v.stk = t.stk

/-! ### Skips -/

/-- R130, R131: `SE Vx, nn` and `SNE Vx, nn`. -/
def Obligations.ImmediateSkips : Prop :=
  DecodesAs 0xF000 0x3000 (fun w => .seImm (fieldX w) (fieldNN w)) ∧
  DecodesAs 0xF000 0x4000 (fun w => .sneImm (fieldX w) (fieldNN w)) ∧
  ∀ (x : Reg) (nn : Byte) (s : State),
    (∃ t, exec (.seImm x nn) s = .next t ∧
      t.pc.toNat = (s.pc.toNat + if s.reg x = nn then 4 else 2) % 65536 ∧ UnchangedBut (fun c => c = .pc) s t) ∧
    (∃ t, exec (.sneImm x nn) s = .next t ∧
      t.pc.toNat = (s.pc.toNat + if s.reg x ≠ nn then 4 else 2) % 65536 ∧ UnchangedBut (fun c => c = .pc) s t)

/-- R132, R133: `SE Vx, Vy` and `SNE Vx, Vy`. That the literal low nibble 0 is part of the encoding, so that 5xyN and
9xyN with another nibble are unknown, is the spec's choice D8 (log entry 11). -/
def Obligations.RegisterSkips : Prop :=
  DecodesAs 0xF00F 0x5000 (fun w => .seReg (fieldX w) (fieldY w)) ∧
  DecodesAs 0xF00F 0x9000 (fun w => .sneReg (fieldX w) (fieldY w)) ∧
  (∀ w, (familyOf w = 5 ∨ familyOf w = 9) → fieldN w ≠ 0 → decodeWord w = .error (.unknownWord w)) ∧
  ∀ (x y : Reg) (s : State),
    (∃ t, exec (.seReg x y) s = .next t ∧
      t.pc.toNat = (s.pc.toNat + if s.reg x = s.reg y then 4 else 2) % 65536 ∧ UnchangedBut (fun c => c = .pc) s t) ∧
    (∃ t, exec (.sneReg x y) s = .next t ∧
      t.pc.toNat = (s.pc.toNat + if s.reg x ≠ s.reg y then 4 else 2) % 65536 ∧ UnchangedBut (fun c => c = .pc) s t)

/-- R180, R181: `SKP Vx` and `SKNP Vx` test the key whose number is the low nibble of Vx; the mask is the spec's choice D13
(log entry 13). -/
def Obligations.KeySkips : Prop :=
  ∀ (x : Reg) (s : State) (k : Fin 16), k.val = (s.reg x).toNat % 16 →
    (∃ t, exec (.skp x) s = .next t ∧
      t.pc.toNat = (s.pc.toNat + if s.pressed k = true then 4 else 2) % 65536 ∧ UnchangedBut (fun c => c = .pc) s t) ∧
    (∃ t, exec (.sknp x) s = .next t ∧
      t.pc.toNat = (s.pc.toNat + if s.pressed k = false then 4 else 2) % 65536 ∧ UnchangedBut (fun c => c = .pc) s t)

/-! ### Load, arithmetic, logic, shift, random -/

/-- R140, R141: `LD Vx, nn` and `ADD Vx, nn`, which wraps and writes no flag. -/
def Obligations.ImmediateLoadAndAdd : Prop :=
  DecodesAs 0xF000 0x6000 (fun w => .ldImm (fieldX w) (fieldNN w)) ∧
  DecodesAs 0xF000 0x7000 (fun w => .addImm (fieldX w) (fieldNN w)) ∧
  ∀ (x : Reg) (nn : Byte) (s : State),
    (∃ t, exec (.ldImm x nn) s = .next t ∧ t.reg x = nn ∧ t.pc.toNat = (s.pc.toNat + 2) % 65536 ∧
      UnchangedBut (fun c => c = .v x ∨ c = .pc) s t) ∧
    (∃ t, exec (.addImm x nn) s = .next t ∧ (t.reg x).toNat = ((s.reg x).toNat + nn.toNat) % 256 ∧
      t.pc.toNat = (s.pc.toNat + 2) % 65536 ∧ UnchangedBut (fun c => c = .v x ∨ c = .pc) s t)

/-- R142 to R145: `LD`, `OR`, `AND`, `XOR Vx, Vy`, bit by bit, with no flag written. -/
def Obligations.AssignAndLogic : Prop :=
  DecodesAs 0xF00F 0x8000 (fun w => .ldReg (fieldX w) (fieldY w)) ∧
  DecodesAs 0xF00F 0x8001 (fun w => .orReg (fieldX w) (fieldY w)) ∧
  DecodesAs 0xF00F 0x8002 (fun w => .andReg (fieldX w) (fieldY w)) ∧
  DecodesAs 0xF00F 0x8003 (fun w => .xorReg (fieldX w) (fieldY w)) ∧
  ∀ (x y : Reg) (s : State),
    (∃ t, exec (.ldReg x y) s = .next t ∧ t.reg x = s.reg y ∧ t.pc.toNat = (s.pc.toNat + 2) % 65536 ∧
      UnchangedBut (fun c => c = .v x ∨ c = .pc) s t) ∧
    (∃ t, exec (.orReg x y) s = .next t ∧
      (∀ k < 8, (t.reg x).getLsbD k = ((s.reg x).getLsbD k || (s.reg y).getLsbD k)) ∧
      t.pc.toNat = (s.pc.toNat + 2) % 65536 ∧ UnchangedBut (fun c => c = .v x ∨ c = .pc) s t) ∧
    (∃ t, exec (.andReg x y) s = .next t ∧
      (∀ k < 8, (t.reg x).getLsbD k = ((s.reg x).getLsbD k && (s.reg y).getLsbD k)) ∧
      t.pc.toNat = (s.pc.toNat + 2) % 65536 ∧ UnchangedBut (fun c => c = .v x ∨ c = .pc) s t) ∧
    (∃ t, exec (.xorReg x y) s = .next t ∧
      (∀ k < 8, (t.reg x).getLsbD k = ((s.reg x).getLsbD k != (s.reg y).getLsbD k)) ∧
      t.pc.toNat = (s.pc.toNat + 2) % 65536 ∧ UnchangedBut (fun c => c = .v x ∨ c = .pc) s t)

/-- R146: `ADD Vx, Vy`, the four cases of its corner-case list; `c` is the carry of the values at entry. The cases with
`x = 15` or `y = 15` rest on the spec's sequential reading D9 (log entry 14). -/
def Obligations.AddSetsCarry : Prop :=
  ∀ (x y : Reg) (s : State), ∃ t c, exec (.addReg x y) s = .next t ∧
    c = (if (s.reg x).toNat + (s.reg y).toNat > 255 then 1 else 0) ∧
    (x ≠ 15 → (t.reg 15).toNat = c) ∧
    (x ≠ 15 → y ≠ 15 → (t.reg x).toNat = ((s.reg x).toNat + (s.reg y).toNat) % 256) ∧
    (x = 15 → y ≠ 15 → (t.reg 15).toNat = (c + (s.reg y).toNat) % 256) ∧
    (x ≠ 15 → y = 15 → (t.reg x).toNat = ((s.reg x).toNat + c) % 256) ∧
    (x = 15 → y = 15 → (t.reg 15).toNat = 2 * c) ∧
    t.pc.toNat = (s.pc.toNat + 2) % 65536 ∧ UnchangedBut (fun d => d = .v x ∨ d = .v 15 ∨ d = .pc) s t

/-- R147: `SUB Vx, Vy`, the four cases; `n` is "no borrow" of the values at entry. The cases with `x = 15` or `y = 15` rest
on D9 (log entry 14). -/
def Obligations.SubSetsNoBorrow : Prop :=
  ∀ (x y : Reg) (s : State), ∃ t n, exec (.subReg x y) s = .next t ∧
    n = (if (s.reg y).toNat > (s.reg x).toNat then 0 else 1) ∧
    (x ≠ 15 → (t.reg 15).toNat = n) ∧
    (x ≠ 15 → y ≠ 15 → (t.reg x).toNat = ((s.reg x).toNat + 256 - (s.reg y).toNat) % 256) ∧
    (x = 15 → y ≠ 15 → (t.reg 15).toNat = (n + 256 - (s.reg y).toNat) % 256) ∧
    (x ≠ 15 → y = 15 → (t.reg x).toNat = ((s.reg x).toNat + 256 - n) % 256) ∧
    (x = 15 → y = 15 → (t.reg 15).toNat = 0) ∧
    t.pc.toNat = (s.pc.toNat + 2) % 65536 ∧ UnchangedBut (fun d => d = .v x ∨ d = .v 15 ∨ d = .pc) s t

/-- R149: `SUBN Vx, Vy`, the four cases; `n` is "no borrow" of `Vy - Vx` at entry. The cases with `x = 15` or `y = 15` rest
on D9 (log entry 14). -/
def Obligations.SubnSetsNoBorrow : Prop :=
  ∀ (x y : Reg) (s : State), ∃ t n, exec (.subnReg x y) s = .next t ∧
    n = (if (s.reg x).toNat > (s.reg y).toNat then 0 else 1) ∧
    (x ≠ 15 → (t.reg 15).toNat = n) ∧
    (x ≠ 15 → y ≠ 15 → (t.reg x).toNat = ((s.reg y).toNat + 256 - (s.reg x).toNat) % 256) ∧
    (x = 15 → y ≠ 15 → (t.reg 15).toNat = ((s.reg y).toNat + 256 - n) % 256) ∧
    (x ≠ 15 → y = 15 → (t.reg x).toNat = (n + 256 - (s.reg x).toNat) % 256) ∧
    (x = 15 → y = 15 → (t.reg 15).toNat = 0) ∧
    t.pc.toNat = (s.pc.toNat + 2) % 65536 ∧ UnchangedBut (fun d => d = .v x ∨ d = .v 15 ∨ d = .pc) s t

/-- R148, R150: `SHR Vx` and `SHL Vx` shift Vx itself by one and put the bit shifted out in VF; the field `y` plays no part
(R97). The cases with `x = 15` rest on D9 (log entry 14). -/
def Obligations.ShiftsMoveOneBitIntoVF : Prop :=
  ∀ (x y : Reg) (s : State),
    (∃ t, exec (.shr x y) s = .next t ∧
      (x ≠ 15 → (t.reg x).toNat = (s.reg x).toNat / 2 ∧ (t.reg 15).toNat = (s.reg x).toNat % 2) ∧
      (x = 15 → (t.reg 15).toNat = 0) ∧
      t.pc.toNat = (s.pc.toNat + 2) % 65536 ∧ UnchangedBut (fun d => d = .v x ∨ d = .v 15 ∨ d = .pc) s t) ∧
    (∃ t, exec (.shl x y) s = .next t ∧
      (x ≠ 15 → (t.reg x).toNat = 2 * (s.reg x).toNat % 256 ∧ (t.reg 15).toNat = (s.reg x).toNat / 128) ∧
      (x = 15 → (t.reg 15).toNat = if (s.reg 15).toNat ≥ 128 then 2 else 0) ∧
      t.pc.toNat = (s.pc.toNat + 2) % 65536 ∧ UnchangedBut (fun d => d = .v x ∨ d = .v 15 ∨ d = .pc) s t)

/-- R151: `RND Vx, nn` for every value the draw may have: the results are the bytes within `nn` and no others. The draw is a
free value of the model (D14: log entry 2), which the statement does not look into. -/
def Obligations.RandomIsMaskedDraw : Prop :=
  ∀ (x : Reg) (nn : Byte) (s : State),
    (∃ t, exec (.rnd x nn) s = .next t ∧ t.reg x = Config.rndByte s.draws &&& nn ∧ t.draws = s.draws + 1 ∧
      t.pc.toNat = (s.pc.toNat + 2) % 65536 ∧ UnchangedBut (fun c => c = .v x ∨ c = .pc) s t) ∧
    (∀ b : Byte, (∃ r, (rndWith r x nn s).reg x = b) ↔ b &&& ~~~nn = 0) ∧
    (∀ r : Byte, (rndWith r x nn s).reg x = r &&& nn ∧ UnchangedBut (fun c => c = .v x ∨ c = .pc) s (rndWith r x nn s))

/-! ### Index register and memory -/

/-- R160, R162: `LD I, nnn` and `LD F, Vx`. -/
def Obligations.IndexLoads : Prop :=
  DecodesAs 0xF000 0xA000 (fun w => .ldI (fieldNNN w)) ∧ DecodesAs 0xF0FF 0xF029 (fun w => .ldF (fieldX w)) ∧
  ∀ (nnn : Addr) (x : Reg) (s : State),
    (∃ t, exec (.ldI nnn) s = .next t ∧ t.i.toNat = nnn.toNat ∧ t.pc.toNat = (s.pc.toNat + 2) % 65536 ∧
      UnchangedBut (fun c => c = .i ∨ c = .pc) s t) ∧
    (∃ t, exec (.ldF x) s = .next t ∧ t.i.toNat = (s.reg x).toNat * 5 ∧ t.pc.toNat = (s.pc.toNat + 2) % 65536 ∧
      UnchangedBut (fun c => c = .i ∨ c = .pc) s t)

/-- R161: `ADD I, Vx`: the flag says that the unreduced sum passes 0xFFF; `I` keeps 16 bits (D4: log entry 17) and grows by
Vx read after VF is written, which matters for `x = 15` only (D9: log entry 14). -/
def Obligations.AddToIndexFlagsPast0xFFF : Prop :=
  ∀ (x : Reg) (s : State), ∃ t n, exec (.addI x) s = .next t ∧
    n = (if s.i.toNat + (s.reg x).toNat > 0xFFF then 1 else 0) ∧ (t.reg 15).toNat = n ∧
    t.i.toNat = (s.i.toNat + if x = 15 then n else (s.reg x).toNat) % 65536 ∧
    t.pc.toNat = (s.pc.toNat + 2) % 65536 ∧ UnchangedBut (fun c => c = .v 15 ∨ c = .i ∨ c = .pc) s t

/-- R163: `LD B, Vx` stores the three decimal digits at `I`, `I + 1`, `I + 2`, each address reduced modulo 4096 (D3: log
entry 6); every other byte, and `I`, is unchanged. -/
def Obligations.BcdStoresThreeDigits : Prop :=
  ∀ (x : Reg) (s : State), Memory.wf s.mem = true → ∃ t, exec (.ldB x) s = .next t ∧
    (t.memRead (s.indexed 0)).toNat = (s.reg x).toNat / 100 ∧
    (t.memRead (s.indexed 1)).toNat = (s.reg x).toNat / 10 % 10 ∧
    (t.memRead (s.indexed 2)).toNat = (s.reg x).toNat % 10 ∧
    t.pc.toNat = (s.pc.toNat + 2) % 65536 ∧
    UnchangedBut (fun c => c = .pc ∨ ∃ k < 3, c = memCell (s.indexed k)) s t

/-- R164: `LD [I], Vx` stores V0 to VX at `I`, `I + 1`, ... (addresses reduced one by one, D3: log entry 6) and advances `I`
by `X + 1`, modulo 65536 (D4: log entry 17); every other byte is unchanged. -/
def Obligations.DumpStoresRegistersUpToX : Prop :=
  ∀ (x : Reg) (s : State), Memory.wf s.mem = true → ∃ t, exec (.ldMemVx x) s = .next t ∧
    (∀ r : Reg, r ≤ x → t.memRead (s.indexed r.val) = s.reg r) ∧
    t.i.toNat = (s.i.toNat + x.val + 1) % 65536 ∧ t.pc.toNat = (s.pc.toNat + 2) % 65536 ∧
    UnchangedBut (fun c => c = .i ∨ c = .pc ∨ ∃ k ≤ x.val, c = memCell (s.indexed k)) s t

/-- R165: `LD Vx, [I]` loads V0 to VX from `I`, `I + 1`, ... (D3: log entry 6) and advances `I` by `X + 1`, modulo 65536
(D4: log entry 17); every byte of memory and every other register is unchanged. -/
def Obligations.LoadFillsRegistersUpToX : Prop :=
  ∀ (x : Reg) (s : State), ∃ t, exec (.ldVxMem x) s = .next t ∧
    (∀ r : Reg, r ≤ x → t.reg r = s.memRead (s.indexed r.val)) ∧
    t.i.toNat = (s.i.toNat + x.val + 1) % 65536 ∧ t.pc.toNat = (s.pc.toNat + 2) % 65536 ∧
    UnchangedBut (fun c => c = .i ∨ c = .pc ∨ ∃ r : Reg, r ≤ x ∧ c = .v r) s t

/-- R164 with R165: what `LD [I], Vx` stored, `LD Vx, [I]` loads back, from any later state with the same memory and `I`
as it was before the store (no address faults, D3: log entry 6). -/
def Obligations.LoadRestoresWhatDumpStored : Prop :=
  ∀ (x : Reg) (s t u : State), Memory.wf s.mem = true → exec (.ldMemVx x) s = .next t → u.mem = t.mem → u.i = s.i →
    ∃ v, exec (.ldVxMem x) u = .next v ∧ ∀ r : Reg, r ≤ x → v.reg r = s.reg r

/-- R72: a store over a byte of the next instruction is what the next fetch reads there (D22: log entry 18), for every byte
that `LD [I], Vx` or `LD B, Vx` stores. The byte at `pc + 2` is the high one, the byte at `pc + 3` the low one (R67);
addresses are compared modulo 4096 (D3: log entry 6). -/
def Obligations.NextFetchSeesTheStore : Prop :=
  ∀ (x : Reg) (s t : State), Memory.wf s.mem = true →
    (exec (.ldMemVx x) s = .next t → ∀ k : Reg, k ≤ x →
      (s.indexed k.val % 4096 = (s.pc.toNat + 2) % 4096 → t.fetchWord.toNat / 256 = (s.reg k).toNat) ∧
      (s.indexed k.val % 4096 = (s.pc.toNat + 3) % 4096 → t.fetchWord.toNat % 256 = (s.reg k).toNat)) ∧
    (exec (.ldB x) s = .next t → ∀ k < 3,
      (s.indexed k % 4096 = (s.pc.toNat + 2) % 4096 →
        t.fetchWord.toNat / 256 = (s.reg x).toNat / 10 ^ (2 - k) % 10) ∧
      (s.indexed k % 4096 = (s.pc.toNat + 3) % 4096 →
        t.fetchWord.toNat % 256 = (s.reg x).toNat / 10 ^ (2 - k) % 10))

/-! ### Display -/

/-- R170: `CLS`; all 16 bits of its word are fixed. That no other word (0nE0 with n not 0) decodes to it is the spec's
choice D8 (log entry 11). -/
def Obligations.ClearScreenBlanksAndSetsDF : Prop :=
  (∀ w, decodeWord w = .ok .cls ↔ w = 0x00E0) ∧
  ∀ s : State, ∃ t, exec .cls s = .next t ∧ (∀ k, t.pixel k = false) ∧ t.df = true ∧
    t.pc.toNat = (s.pc.toNat + 2) % 65536 ∧ UnchangedBut (fun c => (∃ k, c = .fb k) ∨ c = .df ∨ c = .pc) s t

/-- R171, R172: `DRW Vx, Vy, n` flips exactly the cells that a 1 bit of the sprite reaches, VF says whether one of them was
lit, `DF` is set always, everything else is unchanged. Coordinates are the values at entry (D10: log entry 14), bit 7 is
the left pixel (D11: log entry 12), sprite addresses wrap (D3: log entry 6). -/
def Obligations.DrawXorsSpriteAndFlagsCollision : Prop :=
  ∀ (x y : Reg) (n : Nat) (s : State), n < 16 →
    ∃ t, exec (.drw x y n) s = .next t ∧
      (∀ k : Fin 2048, t.pixel k ≠ s.pixel k ↔
        ∃ row < n, ∃ col < 8, (s.memRead (s.indexed row)).getLsbD (7 - col) = true ∧
          k.val = ((s.reg y).toNat + row) % 32 * 64 + ((s.reg x).toNat + col) % 64) ∧
      t.reg 15 = (if ∃ k, s.pixel k = true ∧ t.pixel k = false then 1 else 0) ∧
      t.df = true ∧ t.pc.toNat = (s.pc.toNat + 2) % 65536 ∧
      UnchangedBut (fun c => (∃ k, c = .fb k) ∨ c = .v 15 ∨ c = .df ∨ c = .pc) s t

/-- R171, corner case 5: drawing the same sprite again at the same place restores the framebuffer, and reports a
collision exactly when the first drawing lit a cell. The second drawing may happen in any later state that has the
framebuffer of the first, its sprite and its coordinates, in whichever registers (coordinates at entry, D10: log entry
14; no address faults, D3: log entry 6). -/
def Obligations.DrawingTwiceRestoresFramebuffer : Prop :=
  ∀ (x y x' y' : Reg) (n : Nat) (s t u : State), n < 16 → exec (.drw x y n) s = .next t → u.fb = t.fb → u.mem = s.mem →
    u.i = s.i → u.reg x' = s.reg x → u.reg y' = s.reg y →
    ∃ v, exec (.drw x' y' n) u = .next v ∧ (∀ k, v.pixel k = s.pixel k) ∧
      v.reg 15 = (if ∃ k, s.pixel k = false ∧ t.pixel k = true then 1 else 0)

/-! ### Keys and timers -/

/-- R183: `LD Vx, K` with a key pressed takes the highest one; with none it changes no state at all and reports
`WAIT_KEY` (D29: log entry 15). -/
def Obligations.KeyWaitTakesHighestOrWaits : Prop :=
  ∀ (x : Reg) (s : State),
    (∀ k : Fin 16, s.pressed k = true → (∀ j, k < j → s.pressed j = false) →
      ∃ t, exec (.ldVxK x) s = .next t ∧ (t.reg x).toNat = k.val ∧ t.pc.toNat = (s.pc.toNat + 2) % 65536 ∧
        UnchangedBut (fun c => c = .v x ∨ c = .pc) s t ∧ instrStatus (.ldVxK x) s = .ok) ∧
    ((∀ k, s.pressed k = false) → exec (.ldVxK x) s = .next s ∧ instrStatus (.ldVxK x) s = .waitKey)

/-- R182, R184: `LD Vx, DT` and `LD DT, Vx`; that a step returns a status, here `OK`, is the spec's choice D29 (log
entry 15). -/
def Obligations.DelayTimerInstructions : Prop :=
  DecodesAs 0xF0FF 0xF007 (fun w => .ldVxDt (fieldX w)) ∧ DecodesAs 0xF0FF 0xF015 (fun w => .ldDtVx (fieldX w)) ∧
  ∀ (x : Reg) (s : State),
    (∃ t, exec (.ldVxDt x) s = .next t ∧ t.reg x = s.dt ∧ t.pc.toNat = (s.pc.toNat + 2) % 65536 ∧
      UnchangedBut (fun c => c = .v x ∨ c = .pc) s t ∧ instrStatus (.ldVxDt x) s = .ok) ∧
    (∃ t, exec (.ldDtVx x) s = .next t ∧ t.dt = s.reg x ∧ t.pc.toNat = (s.pc.toNat + 2) % 65536 ∧
      UnchangedBut (fun c => c = .dt ∨ c = .pc) s t ∧ instrStatus (.ldDtVx x) s = .ok)

/-- R185, R40: `LD ST, Vx`; the sound output follows at once (D16: log entry 15). -/
def Obligations.SoundTimerLoadDrivesSound : Prop :=
  ∀ (x : Reg) (s : State), ∃ t, exec (.ldStVx x) s = .next t ∧ t.st = s.reg x ∧
    (t.soundOn = true ↔ 0 < (s.reg x).toNat) ∧ t.pc.toNat = (s.pc.toNat + 2) % 65536 ∧
    UnchangedBut (fun c => c = .st ∨ c = .pc) s t

/-- R215: one tick, both timers by themselves, each floored at 0, and what the tick returns (D16: log entry 15); it
works the same in every state, halted ones among them (D20: log entry 7). -/
def Obligations.TickDecrementsBothTimers : Prop :=
  ∀ s : State, ∃ t n, command .updateTimers s = .next (t, .notification n) ∧
    t.dt.toNat = s.dt.toNat - 1 ∧ t.st.toNat = s.st.toNat - 1 ∧
    n = (if s.st.toNat > 0 then (if t.st.toNat > 0 then .on else .off) else .none) ∧
    UnchangedBut (fun c => c = .dt ∨ c = .st) s t

/-- R40: the level output `sound_on`, its reads, and R36: the framebuffer port. The four reads change nothing (R13). The
level output is the spec's choice D16 (log entry 15), the key latch D19 (log entry 16). -/
def Obligations.ReadPortsShowStateAndChangeNothing : Prop :=
  ∀ s : State,
    (∃ l, command .readFramebuffer s = .next (s, .framebuffer l) ∧ l.length = 2048 ∧
      ∀ k : Fin 2048, l[k.val]? = some (s.pixel k)) ∧
    (∀ k, command (.readKey k) s = .next (s, .bit (s.pressed k))) ∧
    command .readDrawFlag s = .next (s, .bit s.df) ∧
    ∃ b, command .readSound s = .next (s, .bit b) ∧ (b = true ↔ s.st ≠ 0)

/-- R37: `setKey(k, v)` sets that one cell (D19: log entry 16). -/
def Obligations.SetKeySetsOneCell : Prop :=
  ∀ (s : State) (k : Fin 16) (v : Bool), ∃ t, command (.setKey k v) s = .next (t, .done) ∧
    t.pressed k = v ∧ UnchangedBut (fun c => c = .key k) s t

/-- R38: `clearDrawFlag()` clears `DF` and nothing else, `readDrawFlag()` returns it, and nothing but that command and a
reset ever clears it. -/
def Obligations.OnlyHostOrResetClearsDF : Prop :=
  (∀ s : State, ∃ t, command .clearDrawFlag s = .next (t, .done) ∧ t.df = false ∧ UnchangedBut (fun c => c = .df) s t) ∧
  (∀ s : State, command .readDrawFlag s = .next (s, .bit s.df)) ∧
  ∀ (c : Command) (s t : State) (r : Response), command c s = .next (t, r) → s.df = true → t.df = false →
    c = .clearDrawFlag ∨ c = .initializeBlock ∨ ∃ bytes, c = .loadProgram bytes

/-- R242, R243: the loader. An image of at most 3584 bytes stands at 0x200 upward in an otherwise reset machine; a
larger one leaves the reset state (D26: log entry 18; `DF` and `ERR` at reset, D15: log entry 9). -/
def Obligations.LoaderPlacesImageOrResets : Prop :=
  ∀ (s : State) (bytes : List Byte),
    (bytes.length ≤ 3584 → ∃ t, command (.loadProgram bytes) s = .next (t, .loadStatus .ok) ∧
      (∀ k, ∀ h : k < bytes.length, t.memRead (0x200 + k) = bytes[k]) ∧
      ∀ c, (∀ k < bytes.length, c ≠ memCell (0x200 + k)) → t.cell c = State.reset.cell c) ∧
    (3584 < bytes.length → ∃ t, command (.loadProgram bytes) s = .next (t, .loadStatus .romTooLarge) ∧
      ∀ c, t.cell c = State.reset.cell c)

/-! ### Rules about the whole machine -/

/-- R21: the seven flag-writing instructions, and those whose destination field names register 15, are the only ones that
change VF. -/
def Obligations.OnlyFlagWritersAndNamedDestinationsChangeVF : Prop :=
  ∀ (i : Instr) (s t : State), exec i s = .next t → t.reg 15 ≠ s.reg 15 →
    (∃ x y, i = .addReg x y ∨ i = .subReg x y ∨ i = .shr x y ∨ i = .subnReg x y ∨ i = .shl x y) ∨
    (∃ x y n, i = .drw x y n) ∨ (∃ x, i = .addI x) ∨
    (∃ nn, i = .ldImm 15 nn ∨ i = .addImm 15 nn ∨ i = .rnd 15 nn) ∨
    (∃ y, i = .ldReg 15 y ∨ i = .orReg 15 y ∨ i = .andReg 15 y ∨ i = .xorReg 15 y) ∨
    i = .ldVxDt 15 ∨ i = .ldVxK 15 ∨ i = .ldVxMem 15

/-- R24, the table of how each instruction leaves `pc`, every case of an instruction (D4, D6, D13: log entries 17, 7 and
13); its lines for an unknown word and a halted step are `UnknownWordOnlyAdvancesPc` and `HaltedStepChangesNothing`. -/
def Obligations.EveryInstructionLeavesPcAsTabled : Prop :=
  ∀ (i : Instr) (s t : State), exec i s = .next t →
    match i with
    | .cls | .ldImm _ _ | .addImm _ _ | .ldReg _ _ | .orReg _ _ | .andReg _ _ | .xorReg _ _ | .addReg _ _ | .subReg _ _
    | .shr _ _ | .subnReg _ _ | .shl _ _ | .ldI _ | .rnd _ _ | .drw _ _ _ | .ldVxDt _ | .ldDtVx _ | .ldStVx _ | .addI _
    | .ldF _ | .ldB _ | .ldMemVx _ | .ldVxMem _ => t.pc.toNat = (s.pc.toNat + 2) % 65536
    | .seImm x nn => t.pc.toNat = (s.pc.toNat + if s.reg x = nn then 4 else 2) % 65536
    | .sneImm x nn => t.pc.toNat = (s.pc.toNat + if s.reg x = nn then 2 else 4) % 65536
    | .seReg x y => t.pc.toNat = (s.pc.toNat + if s.reg x = s.reg y then 4 else 2) % 65536
    | .sneReg x y => t.pc.toNat = (s.pc.toNat + if s.reg x = s.reg y then 2 else 4) % 65536
    | .skp x => t.pc.toNat = (s.pc.toNat + if s.pressed (keyOf (s.reg x)) then 4 else 2) % 65536
    | .sknp x => t.pc.toNat = (s.pc.toNat + if s.pressed (keyOf (s.reg x)) then 2 else 4) % 65536
    | .jp nnn => t.pc.toNat = nnn.toNat
    | .call nnn => t.pc = if s.sp = 16 then s.pc else nnn.setWidth 16
    | .jpV0 nnn => t.pc.toNat = nnn.toNat + (s.reg 0).toNat
    | .ret => if s.sp = 0 then t.pc = s.pc else ∃ j : Fin 16, s.sp.toNat = j.val + 1 ∧ t.pc = s.entry j + 2
    | .ldVxK _ => t.pc = if ∃ k, s.pressed k = true then s.pc + 2 else s.pc

/-- R30, R32: `CLS` and `DRW` set `DF` whenever they run, also when no cell changes; every other instruction leaves the
framebuffer and `DF` as they were. -/
def Obligations.OnlyClsAndDrwTouchTheDisplay : Prop :=
  ∀ (i : Instr) (s t : State), exec i s = .next t →
    ((i = .cls ∨ ∃ x y n, i = .drw x y n) → t.df = true) ∧
    ((i ≠ .cls ∧ ∀ x y n, i ≠ .drw x y n) → t.fb = s.fb ∧ t.df = s.df)

/-- R68: only `LD B, Vx` and `LD [I], Vx` store to memory. -/
def Obligations.OnlyTwoInstructionsStore : Prop :=
  ∀ (i : Instr) (s t : State), exec i s = .next t → t.mem ≠ s.mem → ∃ x, i = .ldB x ∨ i = .ldMemVx x

/-- R210, R31, R27, R28, R90: a step never writes a key cell, never decrements a timer (`DT` and `ST` change only by `LD
DT, Vx` and `LD ST, Vx`), and sets `ERR` only from running (D6 and D20: log entry 7; the key latch, D19: log entry 16).
-/
def Obligations.StepLeavesKeysTimersAndLatchAlone : Prop :=
  ∀ s t : State, step s = .next t →
    t.key = s.key ∧
    (t.dt ≠ s.dt → ∃ x, decodeWord s.fetchWord = .ok (.ldDtVx x) ∧ t.dt = s.reg x) ∧
    (t.st ≠ s.st → ∃ x, decodeWord s.fetchWord = .ok (.ldStVx x) ∧ t.st = s.reg x) ∧
    (t.err ≠ s.err → s.err = .running ∧
      ((s.sp = 16 ∧ t.err = .stackOverflow ∧ ∃ nnn, decodeWord s.fetchWord = .ok (.call nnn)) ∨
       (s.sp = 0 ∧ t.err = .stackUnderflow ∧ decodeWord s.fetchWord = .ok .ret)))

/-- R28, R32, R42: `ST` and `DF` are write-only to the program. Two states that differ in them alone step to states that
differ in them alone. -/
def Obligations.SoundTimerAndRedrawFlagAreNeverRead : Prop :=
  ∀ (s t : State) (b : Byte) (d : Bool), step s = .next t →
    ∃ t', step ((s.setSt b).setDf d) = .next t' ∧ (t'.setSt 0).setDf false = (t.setSt 0).setDf false

/-- R203, R207: the status of a step says what it did: each fault status with its latch, `WAIT_KEY` exactly when `LD Vx,
K` found no key, `UNKNOWN_OPCODE` exactly for an unknown word (D29: log entry 15; the errors D6, unknown words D7: log
entries 7 and 10). -/
def Obligations.StatusSaysWhatTheStepDid : Prop :=
  ∀ s t : State, s.err = .running → step s = .next t →
    (stepStatus s = .stackOverflow ↔ t.err = .stackOverflow) ∧
    (stepStatus s = .stackUnderflow ↔ t.err = .stackUnderflow) ∧
    (stepStatus s = .waitKey ↔ (∃ x, decodeWord s.fetchWord = .ok (.ldVxK x)) ∧ ∀ k, s.pressed k = false) ∧
    (stepStatus s = .unknownOpcode ↔ ∃ e, decodeWord s.fetchWord = .error e)

/-- R204, R206: a halt ends only by `initialize` or `loadProgram`; every other command leaves the latch as it is (D6, D20:
log entry 7). -/
def Obligations.OnlyResetEndsAHalt : Prop :=
  ∀ (c : Command) (s t : State) (r : Response), s.halted → command c s = .next (t, r) →
    t.err = s.err ∧ c ≠ .initializeBlock ∧ (∀ bytes, c ≠ .loadProgram bytes) ∨
    t.err = .running ∧ (c = .initializeBlock ∨ ∃ bytes, c = .loadProgram bytes)

/-- R17: the end of a run the spec suggests, a jump to itself, is stable: `step` changes nothing (D23: log entry 18; the
fetch at 0xFFF wraps, D3 and D25: log entry 6; the status, D29: log entry 15). -/
def Obligations.EndOfRunIsStable : Prop :=
  ∀ s : State, s.atEnd → step s = .next s ∧ stepStatus s = .ok

/-- R204: a run launched with `ERR = 0` is successful exactly when all its commands complete and no step of it reports a
stack error; a reset afterwards does not make up for one (D6, D20: log entry 7; the status, D29: log entry 15). -/
def Obligations.SafeRunIsTheRunWithoutStackErrors : Prop :=
  ∀ (cs : List Command) (s : State), s.err = .running →
    (SafeRun cs s ↔ ∃ t rs, runCommands cs s = .next (t, rs) ∧
      .stepStatus .stackOverflow ∉ rs ∧ .stepStatus .stackUnderflow ∉ rs)
end

