-- ==== Sys2Proof/Laws/Decode.lean ====
section
/-! SUPPORT. The fields of a word put together by the encoder's formats, and what the decoder can answer. -/

namespace Sys2Proof

@[simp] theorem regOfBits_bitsOfReg (r : Reg) : regOfBits (bitsOfReg r) = r := by revert r; decide

@[simp] theorem bitsOfReg_regOfBits (b : BitVec 4) : bitsOfReg (regOfBits b) = b := by
  apply BitVec.eq_of_toNat_eq
  simp [bitsOfReg, regOfBits]

theorem wordField_append {k n : Nat} (a : BitVec k) (b : BitVec n) : (a ++ b).extractLsb' n k = a := by
  apply BitVec.eq_of_getLsbD_eq
  intro i hi
  simp [BitVec.getLsbD_append, hi]

theorem wordField_append_low {k n m lo : Nat} (a : BitVec k) (b : BitVec n) (h : lo + m ≤ n) :
    (a ++ b).extractLsb' lo m = b.extractLsb' lo m := by
  apply BitVec.eq_of_getLsbD_eq
  intro i hi
  have : lo + i < n := by omega
  simp [BitVec.getLsbD_append, BitVec.getLsbD_extractLsb', this]

theorem wordField_whole {n : Nat} (a : BitVec n) : a.extractLsb' 0 n = a := by
  apply BitVec.eq_of_getLsbD_eq
  intro i hi
  simp [hi]

@[simp] theorem familyOf_formatA (f : BitVec 4) (nnn : Addr) : familyOf (formatA f nnn) = f.toNat :=
  congrArg _ (wordField_append f nnn)

@[simp] theorem fieldNNN_formatA (f : BitVec 4) (nnn : Addr) : fieldNNN (formatA f nnn) = nnn :=
  (wordField_append_low f nnn (by decide)).trans (wordField_whole nnn)

@[simp] theorem familyOf_formatXB (f : BitVec 4) (x : Reg) (nn : Byte) : familyOf (formatXB f x nn) = f.toNat :=
  congrArg _ (wordField_append f (bitsOfReg x ++ nn))

@[simp] theorem fieldX_formatXB (f : BitVec 4) (x : Reg) (nn : Byte) : fieldX (formatXB f x nn) = x := by
  have h : (formatXB f x nn).extractLsb' 8 4 = bitsOfReg x :=
    (wordField_append_low f _ (by decide)).trans (wordField_append (bitsOfReg x) nn)
  rw [fieldX, h, regOfBits_bitsOfReg]

@[simp] theorem fieldNN_formatXB (f : BitVec 4) (x : Reg) (nn : Byte) : fieldNN (formatXB f x nn) = nn :=
  (wordField_append_low f _ (by decide)).trans
    ((wordField_append_low (bitsOfReg x) nn (by decide)).trans (wordField_whole nn))

@[simp] theorem familyOf_formatXY (f : BitVec 4) (x y : Reg) (n : BitVec 4) : familyOf (formatXY f x y n) = f.toNat :=
  congrArg _ (wordField_append f (bitsOfReg x ++ (bitsOfReg y ++ n)))

@[simp] theorem fieldX_formatXY (f : BitVec 4) (x y : Reg) (n : BitVec 4) : fieldX (formatXY f x y n) = x := by
  have h : (formatXY f x y n).extractLsb' 8 4 = bitsOfReg x :=
    (wordField_append_low f _ (by decide)).trans (wordField_append (bitsOfReg x) (bitsOfReg y ++ n))
  rw [fieldX, h, regOfBits_bitsOfReg]

@[simp] theorem fieldY_formatXY (f : BitVec 4) (x y : Reg) (n : BitVec 4) : fieldY (formatXY f x y n) = y := by
  have h : (formatXY f x y n).extractLsb' 4 4 = bitsOfReg y :=
    (wordField_append_low f _ (by decide)).trans
      ((wordField_append_low (bitsOfReg x) _ (by decide)).trans (wordField_append (bitsOfReg y) n))
  rw [fieldY, h, regOfBits_bitsOfReg]

@[simp] theorem fieldN_formatXY (f : BitVec 4) (x y : Reg) (n : BitVec 4) : fieldN (formatXY f x y n) = n.toNat := by
  have h : (formatXY f x y n).extractLsb' 0 4 = n :=
    (wordField_append_low f _ (by decide)).trans
      ((wordField_append_low (bitsOfReg x) _ (by decide)).trans
        ((wordField_append_low (bitsOfReg y) n (by decide)).trans (wordField_whole n)))
  rw [fieldN, h]

@[simp] theorem familyOf_formatXS (f : BitVec 4) (x : Reg) (b : Byte) : familyOf (formatXS f x b) = f.toNat :=
  familyOf_formatXB f x b

@[simp] theorem fieldX_formatXS (f : BitVec 4) (x : Reg) (b : Byte) : fieldX (formatXS f x b) = x :=
  fieldX_formatXB f x b

@[simp] theorem fieldNN_formatXS (f : BitVec 4) (x : Reg) (b : Byte) : fieldNN (formatXS f x b) = b :=
  fieldNN_formatXB f x b

/-! ### A word is its family and its fields, in each format -/

theorem append_extract {k n : Nat} (w : BitVec (k + n)) : w.extractLsb' n k ++ w.extractLsb' 0 n = w := by
  apply BitVec.eq_of_getLsbD_eq
  intro j hj
  simp only [BitVec.getLsbD_append, BitVec.getLsbD_extractLsb']
  by_cases h : j < n
  · simp [h]
  · have h1 : n + (j - n) = j := by omega
    have h2 : j - n < k := by omega
    simp [h, h1, h2]

theorem extract_extract {n lo len m : Nat} (w : BitVec n) (h : lo + len ≤ m) :
    (w.extractLsb' 0 m).extractLsb' lo len = w.extractLsb' lo len := by
  apply BitVec.eq_of_getLsbD_eq
  intro j hj
  have : lo + j < m := by omega
  simp [hj, this]

theorem formatA_fields {w : Word} {f : BitVec 4} (hf : familyOf w = f.toNat) : formatA f (fieldNNN w) = w := by
  have h : w.extractLsb' 12 4 = f := BitVec.eq_of_toNat_eq hf
  rw [formatA, ← h]
  exact append_extract (k := 4) (n := 12) w

theorem formatXB_fields {w : Word} {f : BitVec 4} (hf : familyOf w = f.toNat) :
    formatXB f (fieldX w) (fieldNN w) = w := by
  have h : bitsOfReg (fieldX w) ++ fieldNN w = fieldNNN w := by
    have := append_extract (k := 4) (n := 8) (fieldNNN w)
    rw [fieldNNN, extract_extract w (by decide), extract_extract w (by decide)] at this
    rw [fieldX, bitsOfReg_regOfBits]
    exact this
  rw [formatXB, h]
  exact formatA_fields hf

theorem formatXY_fields {w : Word} {f n : BitVec 4} (hf : familyOf w = f.toNat) (hn : fieldN w = n.toNat) :
    formatXY f (fieldX w) (fieldY w) n = w := by
  have hlow : w.extractLsb' 0 4 = n := BitVec.eq_of_toNat_eq hn
  have h : bitsOfReg (fieldY w) ++ n = fieldNN w := by
    have := append_extract (k := 4) (n := 4) (fieldNN w)
    rw [fieldNN, extract_extract w (by decide), extract_extract w (by decide), hlow] at this
    rw [fieldY, bitsOfReg_regOfBits]
    exact this
  rw [formatXY, h]
  exact formatXB_fields hf

theorem formatXS_fields {w : Word} {f : BitVec 4} {b : Byte} (hf : familyOf w = f.toNat) (hb : fieldNN w = b) :
    formatXS f (fieldX w) b = w := by
  subst hb
  exact formatXB_fields hf

/-! ### The masks of the opcode map (R96) -/

theorem nibble_masked (f : BitVec 4) : f &&& 0xF#4 = f := by revert f; decide

theorem formatA_masked (f : BitVec 4) (nnn : Addr) : formatA f nnn &&& 0xF000#16 = f ++ 0#12 := by
  have : (f ++ nnn) &&& (0xF#4 ++ 0#12) = (f &&& 0xF#4) ++ (nnn &&& 0#12) := BitVec.and_append
  rw [nibble_masked, BitVec.and_zero] at this
  exact this

theorem formatXB_masked (f : BitVec 4) (x : Reg) (nn : Byte) : formatXB f x nn &&& 0xF000#16 = f ++ 0#12 :=
  formatA_masked f (bitsOfReg x ++ nn)

theorem formatXYN_masked (f : BitVec 4) (x y : Reg) (n : BitVec 4) : formatXY f x y n &&& 0xF000#16 = f ++ 0#12 :=
  formatA_masked f (bitsOfReg x ++ (bitsOfReg y ++ n))

theorem formatXS_masked (f : BitVec 4) (x : Reg) (b : Byte) : formatXS f x b &&& 0xF0FF#16 = f ++ (0#4 ++ b) := by
  have : (f ++ (bitsOfReg x ++ b)) &&& (0xF#4 ++ (0#4 ++ 0xFF#8)) =
      (f &&& 0xF#4) ++ ((bitsOfReg x &&& 0#4) ++ (b &&& 0xFF#8)) := by
    rw [BitVec.and_append, BitVec.and_append]
  have hb : b &&& 0xFF#8 = b := BitVec.and_allOnes
  rw [nibble_masked, hb, BitVec.and_zero] at this
  exact this

theorem formatXY_masked (f : BitVec 4) (x y : Reg) (n : BitVec 4) :
    formatXY f x y n &&& 0xF00F#16 = f ++ (0#4 ++ (0#4 ++ n)) := by
  have : (f ++ (bitsOfReg x ++ (bitsOfReg y ++ n))) &&& (0xF#4 ++ (0#4 ++ (0#4 ++ 0xF#4))) =
      (f &&& 0xF#4) ++ ((bitsOfReg x &&& 0#4) ++ ((bitsOfReg y &&& 0#4) ++ (n &&& 0xF#4))) := by
    rw [BitVec.and_append, BitVec.and_append, BitVec.and_append]
  rw [nibble_masked, nibble_masked, BitVec.and_zero, BitVec.and_zero] at this
  exact this

/-- What the mask of a row says of the fields: families of one instruction. -/
theorem family_of_masked {w : Word} {f : BitVec 4} (h : w &&& 0xF000#16 = f ++ 0#12) : familyOf w = f.toNat := by
  have hw : formatA (w.extractLsb' 12 4) (fieldNNN w) = w := formatA_fields rfl
  rw [← hw, formatA_masked] at h
  have := congrArg (fun v : BitVec (4 + 12) => v.extractLsb' 12 4) h
  simp only [wordField_append] at this
  rw [familyOf, this]

/-- Families selected by the low nibble. -/
theorem selector_of_masked {w : Word} {f n : BitVec 4} (h : w &&& 0xF00F#16 = f ++ (0#4 ++ (0#4 ++ n))) :
    familyOf w = f.toNat ∧ fieldN w = n.toNat := by
  have hw : formatXY (w.extractLsb' 12 4) (fieldX w) (fieldY w) (w.extractLsb' 0 4) = w := formatXY_fields rfl rfl
  rw [← hw, formatXY_masked] at h
  have hf := congrArg (fun v : BitVec (4 + 12) => v.extractLsb' 12 4) h
  have hn := congrArg (fun v : BitVec (4 + 12) => ((v.extractLsb' 0 12).extractLsb' 0 8).extractLsb' 0 4) h
  simp only [wordField_append] at hf
  simp only [wordField_append_low (k := 4) (n := 12) (m := 12) (lo := 0) (h := by decide), wordField_whole,
    wordField_append_low (k := 4) (n := 8) (m := 8) (lo := 0) (h := by decide),
    wordField_append_low (k := 4) (n := 4) (m := 4) (lo := 0) (h := by decide)] at hn
  exact ⟨by rw [familyOf, hf], by rw [fieldN, hn]⟩

/-- Families selected by the low byte. -/
theorem lowByte_of_masked {w : Word} {f : BitVec 4} {b : Byte} (h : w &&& 0xF0FF#16 = f ++ (0#4 ++ b)) :
    familyOf w = f.toNat ∧ fieldNN w = b := by
  have hw : formatXS (w.extractLsb' 12 4) (fieldX w) (fieldNN w) = w := formatXS_fields rfl rfl
  rw [← hw, formatXS_masked] at h
  have hf := congrArg (fun v : BitVec (4 + 12) => v.extractLsb' 12 4) h
  have hb := congrArg (fun v : BitVec (4 + 12) => (v.extractLsb' 0 12).extractLsb' 0 8) h
  simp only [wordField_append] at hf
  simp only [wordField_append_low (k := 4) (n := 12) (m := 12) (lo := 0) (h := by decide), wordField_whole,
    wordField_append_low (k := 4) (n := 8) (m := 8) (lo := 0) (h := by decide)] at hb
  exact ⟨by rw [familyOf, hf], hb⟩

/-! ### Bytes -/

/-- The two bytes of a word make the word (R67). -/
theorem wordOfBytes_bytes (w : Word) : wordOfBytes (w.extractLsb' 8 8) (w.extractLsb' 0 8) = w := by
  apply BitVec.eq_of_getLsbD_eq
  intro i hi
  simp only [wordOfBytes, BitVec.getLsbD_append, BitVec.getLsbD_extractLsb']
  by_cases h : i < 8
  · simp [h]
  · have h1 : i - 8 < 8 := by omega
    have h2 : 8 + (i - 8) = i := by omega
    simp [h, h1, h2]

/-- The value of a word put together from two bytes (R64). -/
theorem wordOfBytes_toNat (hi lo : Byte) : (wordOfBytes hi lo).toNat = hi.toNat * 256 + lo.toNat := by
  have := lo.isLt
  rw [wordOfBytes, BitVec.toNat_append, Nat.shiftLeft_eq, Nat.mul_comm, ← Nat.two_pow_add_eq_or_of_lt this]

/-- The decoder on the bytes of a word is the decoder on the word. -/
theorem decode_bytesOfWord (w : Word) (rest : List Byte) :
    decode (bytesOfWord w ++ rest) = (decodeWord w).map fun i => (i, rest) := by
  simp only [bytesOfWord, List.cons_append, List.nil_append, decode, wordOfBytes_bytes]
  cases decodeWord w <;> rfl

theorem fieldN_lt (w : Word) : fieldN w < 16 := (w.extractLsb' 0 4).isLt

theorem familyOf_lt (w : Word) : familyOf w < 16 := (w.extractLsb' 12 4).isLt

end Sys2Proof
end

