-- ==== Sys2Proof/Laws/State.lean ====
section
/-! SUPPORT. One lemma per field per update of the state, all by `rfl`: no later proof unfolds a record update. Then the
same through the accessors `reg`, `entry`, `memRead`, `pixel`, `pressed`, `indexed`. -/

namespace Sys2Proof.Machine

variable (s : State)

/-! ### `setReg` -/

@[simp] theorem setReg_v (r : Reg) (b : Byte) : (s.setReg r b).v = s.v.set r b := rfl
@[simp] theorem setReg_i (r : Reg) (b : Byte) : (s.setReg r b).i = s.i := rfl
@[simp] theorem setReg_pc (r : Reg) (b : Byte) : (s.setReg r b).pc = s.pc := rfl
@[simp] theorem setReg_sp (r : Reg) (b : Byte) : (s.setReg r b).sp = s.sp := rfl
@[simp] theorem setReg_stk (r : Reg) (b : Byte) : (s.setReg r b).stk = s.stk := rfl
@[simp] theorem setReg_dt (r : Reg) (b : Byte) : (s.setReg r b).dt = s.dt := rfl
@[simp] theorem setReg_st (r : Reg) (b : Byte) : (s.setReg r b).st = s.st := rfl
@[simp] theorem setReg_mem (r : Reg) (b : Byte) : (s.setReg r b).mem = s.mem := rfl
@[simp] theorem setReg_fb (r : Reg) (b : Byte) : (s.setReg r b).fb = s.fb := rfl
@[simp] theorem setReg_key (r : Reg) (b : Byte) : (s.setReg r b).key = s.key := rfl
@[simp] theorem setReg_df (r : Reg) (b : Byte) : (s.setReg r b).df = s.df := rfl
@[simp] theorem setReg_err (r : Reg) (b : Byte) : (s.setReg r b).err = s.err := rfl
@[simp] theorem setReg_draws (r : Reg) (b : Byte) : (s.setReg r b).draws = s.draws := rfl
@[simp] theorem setReg_entry (r : Reg) (b : Byte) (q : Fin 16) : (s.setReg r b).entry q = s.entry q := rfl
@[simp] theorem setReg_memRead (r : Reg) (b : Byte) (a : Nat) : (s.setReg r b).memRead a = s.memRead a := rfl
@[simp] theorem setReg_pixel (r : Reg) (b : Byte) (q : Fin 2048) : (s.setReg r b).pixel q = s.pixel q := rfl
@[simp] theorem setReg_pressed (r : Reg) (b : Byte) (q : Fin 16) : (s.setReg r b).pressed q = s.pressed q := rfl
@[simp] theorem setReg_indexed (r : Reg) (b : Byte) (o : Nat) : (s.setReg r b).indexed o = s.indexed o := rfl

/-! ### `setI` -/

@[simp] theorem setI_v (w : Word) : (s.setI w).v = s.v := rfl
@[simp] theorem setI_i (w : Word) : (s.setI w).i = w := rfl
@[simp] theorem setI_pc (w : Word) : (s.setI w).pc = s.pc := rfl
@[simp] theorem setI_sp (w : Word) : (s.setI w).sp = s.sp := rfl
@[simp] theorem setI_stk (w : Word) : (s.setI w).stk = s.stk := rfl
@[simp] theorem setI_dt (w : Word) : (s.setI w).dt = s.dt := rfl
@[simp] theorem setI_st (w : Word) : (s.setI w).st = s.st := rfl
@[simp] theorem setI_mem (w : Word) : (s.setI w).mem = s.mem := rfl
@[simp] theorem setI_fb (w : Word) : (s.setI w).fb = s.fb := rfl
@[simp] theorem setI_key (w : Word) : (s.setI w).key = s.key := rfl
@[simp] theorem setI_df (w : Word) : (s.setI w).df = s.df := rfl
@[simp] theorem setI_err (w : Word) : (s.setI w).err = s.err := rfl
@[simp] theorem setI_draws (w : Word) : (s.setI w).draws = s.draws := rfl
@[simp] theorem setI_reg (w : Word) (q : Reg) : (s.setI w).reg q = s.reg q := rfl
@[simp] theorem setI_entry (w : Word) (q : Fin 16) : (s.setI w).entry q = s.entry q := rfl
@[simp] theorem setI_memRead (w : Word) (a : Nat) : (s.setI w).memRead a = s.memRead a := rfl
@[simp] theorem setI_pixel (w : Word) (q : Fin 2048) : (s.setI w).pixel q = s.pixel q := rfl
@[simp] theorem setI_pressed (w : Word) (q : Fin 16) : (s.setI w).pressed q = s.pressed q := rfl

/-! ### `setPc` -/

@[simp] theorem setPc_v (w : Word) : (s.setPc w).v = s.v := rfl
@[simp] theorem setPc_i (w : Word) : (s.setPc w).i = s.i := rfl
@[simp] theorem setPc_pc (w : Word) : (s.setPc w).pc = w := rfl
@[simp] theorem setPc_sp (w : Word) : (s.setPc w).sp = s.sp := rfl
@[simp] theorem setPc_stk (w : Word) : (s.setPc w).stk = s.stk := rfl
@[simp] theorem setPc_dt (w : Word) : (s.setPc w).dt = s.dt := rfl
@[simp] theorem setPc_st (w : Word) : (s.setPc w).st = s.st := rfl
@[simp] theorem setPc_mem (w : Word) : (s.setPc w).mem = s.mem := rfl
@[simp] theorem setPc_fb (w : Word) : (s.setPc w).fb = s.fb := rfl
@[simp] theorem setPc_key (w : Word) : (s.setPc w).key = s.key := rfl
@[simp] theorem setPc_df (w : Word) : (s.setPc w).df = s.df := rfl
@[simp] theorem setPc_err (w : Word) : (s.setPc w).err = s.err := rfl
@[simp] theorem setPc_draws (w : Word) : (s.setPc w).draws = s.draws := rfl
@[simp] theorem setPc_reg (w : Word) (q : Reg) : (s.setPc w).reg q = s.reg q := rfl
@[simp] theorem setPc_entry (w : Word) (q : Fin 16) : (s.setPc w).entry q = s.entry q := rfl
@[simp] theorem setPc_memRead (w : Word) (a : Nat) : (s.setPc w).memRead a = s.memRead a := rfl
@[simp] theorem setPc_pixel (w : Word) (q : Fin 2048) : (s.setPc w).pixel q = s.pixel q := rfl
@[simp] theorem setPc_pressed (w : Word) (q : Fin 16) : (s.setPc w).pressed q = s.pressed q := rfl
@[simp] theorem setPc_indexed (w : Word) (o : Nat) : (s.setPc w).indexed o = s.indexed o := rfl

/-! ### `setSp` -/

@[simp] theorem setSp_v (n : BitVec 5) : (s.setSp n).v = s.v := rfl
@[simp] theorem setSp_i (n : BitVec 5) : (s.setSp n).i = s.i := rfl
@[simp] theorem setSp_pc (n : BitVec 5) : (s.setSp n).pc = s.pc := rfl
@[simp] theorem setSp_sp (n : BitVec 5) : (s.setSp n).sp = n := rfl
@[simp] theorem setSp_stk (n : BitVec 5) : (s.setSp n).stk = s.stk := rfl
@[simp] theorem setSp_dt (n : BitVec 5) : (s.setSp n).dt = s.dt := rfl
@[simp] theorem setSp_st (n : BitVec 5) : (s.setSp n).st = s.st := rfl
@[simp] theorem setSp_mem (n : BitVec 5) : (s.setSp n).mem = s.mem := rfl
@[simp] theorem setSp_fb (n : BitVec 5) : (s.setSp n).fb = s.fb := rfl
@[simp] theorem setSp_key (n : BitVec 5) : (s.setSp n).key = s.key := rfl
@[simp] theorem setSp_df (n : BitVec 5) : (s.setSp n).df = s.df := rfl
@[simp] theorem setSp_err (n : BitVec 5) : (s.setSp n).err = s.err := rfl
@[simp] theorem setSp_draws (n : BitVec 5) : (s.setSp n).draws = s.draws := rfl
@[simp] theorem setSp_reg (n : BitVec 5) (q : Reg) : (s.setSp n).reg q = s.reg q := rfl
@[simp] theorem setSp_entry (n : BitVec 5) (q : Fin 16) : (s.setSp n).entry q = s.entry q := rfl
@[simp] theorem setSp_memRead (n : BitVec 5) (a : Nat) : (s.setSp n).memRead a = s.memRead a := rfl
@[simp] theorem setSp_pixel (n : BitVec 5) (q : Fin 2048) : (s.setSp n).pixel q = s.pixel q := rfl
@[simp] theorem setSp_pressed (n : BitVec 5) (q : Fin 16) : (s.setSp n).pressed q = s.pressed q := rfl
@[simp] theorem setSp_indexed (n : BitVec 5) (o : Nat) : (s.setSp n).indexed o = s.indexed o := rfl

/-! ### `setEntry` -/

@[simp] theorem setEntry_v (j : Fin 16) (w : Word) : (s.setEntry j w).v = s.v := rfl
@[simp] theorem setEntry_i (j : Fin 16) (w : Word) : (s.setEntry j w).i = s.i := rfl
@[simp] theorem setEntry_pc (j : Fin 16) (w : Word) : (s.setEntry j w).pc = s.pc := rfl
@[simp] theorem setEntry_sp (j : Fin 16) (w : Word) : (s.setEntry j w).sp = s.sp := rfl
@[simp] theorem setEntry_stk (j : Fin 16) (w : Word) : (s.setEntry j w).stk = s.stk.set j w := rfl
@[simp] theorem setEntry_dt (j : Fin 16) (w : Word) : (s.setEntry j w).dt = s.dt := rfl
@[simp] theorem setEntry_st (j : Fin 16) (w : Word) : (s.setEntry j w).st = s.st := rfl
@[simp] theorem setEntry_mem (j : Fin 16) (w : Word) : (s.setEntry j w).mem = s.mem := rfl
@[simp] theorem setEntry_fb (j : Fin 16) (w : Word) : (s.setEntry j w).fb = s.fb := rfl
@[simp] theorem setEntry_key (j : Fin 16) (w : Word) : (s.setEntry j w).key = s.key := rfl
@[simp] theorem setEntry_df (j : Fin 16) (w : Word) : (s.setEntry j w).df = s.df := rfl
@[simp] theorem setEntry_err (j : Fin 16) (w : Word) : (s.setEntry j w).err = s.err := rfl
@[simp] theorem setEntry_draws (j : Fin 16) (w : Word) : (s.setEntry j w).draws = s.draws := rfl
@[simp] theorem setEntry_reg (j : Fin 16) (w : Word) (q : Reg) : (s.setEntry j w).reg q = s.reg q := rfl
@[simp] theorem setEntry_memRead (j : Fin 16) (w : Word) (a : Nat) : (s.setEntry j w).memRead a = s.memRead a := rfl
@[simp] theorem setEntry_pixel (j : Fin 16) (w : Word) (q : Fin 2048) : (s.setEntry j w).pixel q = s.pixel q := rfl
@[simp] theorem setEntry_pressed (j : Fin 16) (w : Word) (q : Fin 16) : (s.setEntry j w).pressed q = s.pressed q := rfl
@[simp] theorem setEntry_indexed (j : Fin 16) (w : Word) (o : Nat) : (s.setEntry j w).indexed o = s.indexed o := rfl

/-! ### `setDt` -/

@[simp] theorem setDt_v (b : Byte) : (s.setDt b).v = s.v := rfl
@[simp] theorem setDt_i (b : Byte) : (s.setDt b).i = s.i := rfl
@[simp] theorem setDt_pc (b : Byte) : (s.setDt b).pc = s.pc := rfl
@[simp] theorem setDt_sp (b : Byte) : (s.setDt b).sp = s.sp := rfl
@[simp] theorem setDt_stk (b : Byte) : (s.setDt b).stk = s.stk := rfl
@[simp] theorem setDt_dt (b : Byte) : (s.setDt b).dt = b := rfl
@[simp] theorem setDt_st (b : Byte) : (s.setDt b).st = s.st := rfl
@[simp] theorem setDt_mem (b : Byte) : (s.setDt b).mem = s.mem := rfl
@[simp] theorem setDt_fb (b : Byte) : (s.setDt b).fb = s.fb := rfl
@[simp] theorem setDt_key (b : Byte) : (s.setDt b).key = s.key := rfl
@[simp] theorem setDt_df (b : Byte) : (s.setDt b).df = s.df := rfl
@[simp] theorem setDt_err (b : Byte) : (s.setDt b).err = s.err := rfl
@[simp] theorem setDt_draws (b : Byte) : (s.setDt b).draws = s.draws := rfl
@[simp] theorem setDt_reg (b : Byte) (q : Reg) : (s.setDt b).reg q = s.reg q := rfl
@[simp] theorem setDt_entry (b : Byte) (q : Fin 16) : (s.setDt b).entry q = s.entry q := rfl
@[simp] theorem setDt_memRead (b : Byte) (a : Nat) : (s.setDt b).memRead a = s.memRead a := rfl
@[simp] theorem setDt_pixel (b : Byte) (q : Fin 2048) : (s.setDt b).pixel q = s.pixel q := rfl
@[simp] theorem setDt_pressed (b : Byte) (q : Fin 16) : (s.setDt b).pressed q = s.pressed q := rfl
@[simp] theorem setDt_indexed (b : Byte) (o : Nat) : (s.setDt b).indexed o = s.indexed o := rfl

/-! ### `setSt` -/

@[simp] theorem setSt_v (b : Byte) : (s.setSt b).v = s.v := rfl
@[simp] theorem setSt_i (b : Byte) : (s.setSt b).i = s.i := rfl
@[simp] theorem setSt_pc (b : Byte) : (s.setSt b).pc = s.pc := rfl
@[simp] theorem setSt_sp (b : Byte) : (s.setSt b).sp = s.sp := rfl
@[simp] theorem setSt_stk (b : Byte) : (s.setSt b).stk = s.stk := rfl
@[simp] theorem setSt_dt (b : Byte) : (s.setSt b).dt = s.dt := rfl
@[simp] theorem setSt_st (b : Byte) : (s.setSt b).st = b := rfl
@[simp] theorem setSt_mem (b : Byte) : (s.setSt b).mem = s.mem := rfl
@[simp] theorem setSt_fb (b : Byte) : (s.setSt b).fb = s.fb := rfl
@[simp] theorem setSt_key (b : Byte) : (s.setSt b).key = s.key := rfl
@[simp] theorem setSt_df (b : Byte) : (s.setSt b).df = s.df := rfl
@[simp] theorem setSt_err (b : Byte) : (s.setSt b).err = s.err := rfl
@[simp] theorem setSt_draws (b : Byte) : (s.setSt b).draws = s.draws := rfl
@[simp] theorem setSt_reg (b : Byte) (q : Reg) : (s.setSt b).reg q = s.reg q := rfl
@[simp] theorem setSt_entry (b : Byte) (q : Fin 16) : (s.setSt b).entry q = s.entry q := rfl
@[simp] theorem setSt_memRead (b : Byte) (a : Nat) : (s.setSt b).memRead a = s.memRead a := rfl
@[simp] theorem setSt_pixel (b : Byte) (q : Fin 2048) : (s.setSt b).pixel q = s.pixel q := rfl
@[simp] theorem setSt_pressed (b : Byte) (q : Fin 16) : (s.setSt b).pressed q = s.pressed q := rfl
@[simp] theorem setSt_indexed (b : Byte) (o : Nat) : (s.setSt b).indexed o = s.indexed o := rfl

/-! ### `setFb` -/

@[simp] theorem setFb_v (f : Framebuffer) : (s.setFb f).v = s.v := rfl
@[simp] theorem setFb_i (f : Framebuffer) : (s.setFb f).i = s.i := rfl
@[simp] theorem setFb_pc (f : Framebuffer) : (s.setFb f).pc = s.pc := rfl
@[simp] theorem setFb_sp (f : Framebuffer) : (s.setFb f).sp = s.sp := rfl
@[simp] theorem setFb_stk (f : Framebuffer) : (s.setFb f).stk = s.stk := rfl
@[simp] theorem setFb_dt (f : Framebuffer) : (s.setFb f).dt = s.dt := rfl
@[simp] theorem setFb_st (f : Framebuffer) : (s.setFb f).st = s.st := rfl
@[simp] theorem setFb_mem (f : Framebuffer) : (s.setFb f).mem = s.mem := rfl
@[simp] theorem setFb_fb (f : Framebuffer) : (s.setFb f).fb = f := rfl
@[simp] theorem setFb_key (f : Framebuffer) : (s.setFb f).key = s.key := rfl
@[simp] theorem setFb_df (f : Framebuffer) : (s.setFb f).df = s.df := rfl
@[simp] theorem setFb_err (f : Framebuffer) : (s.setFb f).err = s.err := rfl
@[simp] theorem setFb_draws (f : Framebuffer) : (s.setFb f).draws = s.draws := rfl
@[simp] theorem setFb_reg (f : Framebuffer) (q : Reg) : (s.setFb f).reg q = s.reg q := rfl
@[simp] theorem setFb_entry (f : Framebuffer) (q : Fin 16) : (s.setFb f).entry q = s.entry q := rfl
@[simp] theorem setFb_memRead (f : Framebuffer) (a : Nat) : (s.setFb f).memRead a = s.memRead a := rfl
@[simp] theorem setFb_pressed (f : Framebuffer) (q : Fin 16) : (s.setFb f).pressed q = s.pressed q := rfl
@[simp] theorem setFb_indexed (f : Framebuffer) (o : Nat) : (s.setFb f).indexed o = s.indexed o := rfl

/-! ### `setDf` -/

@[simp] theorem setDf_v (b : Bool) : (s.setDf b).v = s.v := rfl
@[simp] theorem setDf_i (b : Bool) : (s.setDf b).i = s.i := rfl
@[simp] theorem setDf_pc (b : Bool) : (s.setDf b).pc = s.pc := rfl
@[simp] theorem setDf_sp (b : Bool) : (s.setDf b).sp = s.sp := rfl
@[simp] theorem setDf_stk (b : Bool) : (s.setDf b).stk = s.stk := rfl
@[simp] theorem setDf_dt (b : Bool) : (s.setDf b).dt = s.dt := rfl
@[simp] theorem setDf_st (b : Bool) : (s.setDf b).st = s.st := rfl
@[simp] theorem setDf_mem (b : Bool) : (s.setDf b).mem = s.mem := rfl
@[simp] theorem setDf_fb (b : Bool) : (s.setDf b).fb = s.fb := rfl
@[simp] theorem setDf_key (b : Bool) : (s.setDf b).key = s.key := rfl
@[simp] theorem setDf_df (b : Bool) : (s.setDf b).df = b := rfl
@[simp] theorem setDf_err (b : Bool) : (s.setDf b).err = s.err := rfl
@[simp] theorem setDf_draws (b : Bool) : (s.setDf b).draws = s.draws := rfl
@[simp] theorem setDf_reg (b : Bool) (q : Reg) : (s.setDf b).reg q = s.reg q := rfl
@[simp] theorem setDf_entry (b : Bool) (q : Fin 16) : (s.setDf b).entry q = s.entry q := rfl
@[simp] theorem setDf_memRead (b : Bool) (a : Nat) : (s.setDf b).memRead a = s.memRead a := rfl
@[simp] theorem setDf_pixel (b : Bool) (q : Fin 2048) : (s.setDf b).pixel q = s.pixel q := rfl
@[simp] theorem setDf_pressed (b : Bool) (q : Fin 16) : (s.setDf b).pressed q = s.pressed q := rfl
@[simp] theorem setDf_indexed (b : Bool) (o : Nat) : (s.setDf b).indexed o = s.indexed o := rfl

/-! ### `setKeys` -/

@[simp] theorem setKeys_v (k : BitVec 16) : (s.setKeys k).v = s.v := rfl
@[simp] theorem setKeys_i (k : BitVec 16) : (s.setKeys k).i = s.i := rfl
@[simp] theorem setKeys_pc (k : BitVec 16) : (s.setKeys k).pc = s.pc := rfl
@[simp] theorem setKeys_sp (k : BitVec 16) : (s.setKeys k).sp = s.sp := rfl
@[simp] theorem setKeys_stk (k : BitVec 16) : (s.setKeys k).stk = s.stk := rfl
@[simp] theorem setKeys_dt (k : BitVec 16) : (s.setKeys k).dt = s.dt := rfl
@[simp] theorem setKeys_st (k : BitVec 16) : (s.setKeys k).st = s.st := rfl
@[simp] theorem setKeys_mem (k : BitVec 16) : (s.setKeys k).mem = s.mem := rfl
@[simp] theorem setKeys_fb (k : BitVec 16) : (s.setKeys k).fb = s.fb := rfl
@[simp] theorem setKeys_key (k : BitVec 16) : (s.setKeys k).key = k := rfl
@[simp] theorem setKeys_df (k : BitVec 16) : (s.setKeys k).df = s.df := rfl
@[simp] theorem setKeys_err (k : BitVec 16) : (s.setKeys k).err = s.err := rfl
@[simp] theorem setKeys_draws (k : BitVec 16) : (s.setKeys k).draws = s.draws := rfl
@[simp] theorem setKeys_reg (k : BitVec 16) (q : Reg) : (s.setKeys k).reg q = s.reg q := rfl
@[simp] theorem setKeys_entry (k : BitVec 16) (q : Fin 16) : (s.setKeys k).entry q = s.entry q := rfl
@[simp] theorem setKeys_memRead (k : BitVec 16) (a : Nat) : (s.setKeys k).memRead a = s.memRead a := rfl
@[simp] theorem setKeys_pixel (k : BitVec 16) (q : Fin 2048) : (s.setKeys k).pixel q = s.pixel q := rfl
@[simp] theorem setKeys_indexed (k : BitVec 16) (o : Nat) : (s.setKeys k).indexed o = s.indexed o := rfl

/-! ### `countDraw` -/

@[simp] theorem countDraw_v : (s.countDraw).v = s.v := rfl
@[simp] theorem countDraw_i : (s.countDraw).i = s.i := rfl
@[simp] theorem countDraw_pc : (s.countDraw).pc = s.pc := rfl
@[simp] theorem countDraw_sp : (s.countDraw).sp = s.sp := rfl
@[simp] theorem countDraw_stk : (s.countDraw).stk = s.stk := rfl
@[simp] theorem countDraw_dt : (s.countDraw).dt = s.dt := rfl
@[simp] theorem countDraw_st : (s.countDraw).st = s.st := rfl
@[simp] theorem countDraw_mem : (s.countDraw).mem = s.mem := rfl
@[simp] theorem countDraw_fb : (s.countDraw).fb = s.fb := rfl
@[simp] theorem countDraw_key : (s.countDraw).key = s.key := rfl
@[simp] theorem countDraw_df : (s.countDraw).df = s.df := rfl
@[simp] theorem countDraw_err : (s.countDraw).err = s.err := rfl
@[simp] theorem countDraw_draws : (s.countDraw).draws = s.draws + 1 := rfl
@[simp] theorem countDraw_reg (q : Reg) : (s.countDraw).reg q = s.reg q := rfl
@[simp] theorem countDraw_entry (q : Fin 16) : (s.countDraw).entry q = s.entry q := rfl
@[simp] theorem countDraw_memRead (a : Nat) : (s.countDraw).memRead a = s.memRead a := rfl
@[simp] theorem countDraw_pixel (q : Fin 2048) : (s.countDraw).pixel q = s.pixel q := rfl
@[simp] theorem countDraw_pressed (q : Fin 16) : (s.countDraw).pressed q = s.pressed q := rfl
@[simp] theorem countDraw_indexed (o : Nat) : (s.countDraw).indexed o = s.indexed o := rfl

/-! ### `raise` -/

@[simp] theorem raise_v (c : HaltCause) : (s.raise c).v = s.v := rfl
@[simp] theorem raise_i (c : HaltCause) : (s.raise c).i = s.i := rfl
@[simp] theorem raise_pc (c : HaltCause) : (s.raise c).pc = s.pc := rfl
@[simp] theorem raise_sp (c : HaltCause) : (s.raise c).sp = s.sp := rfl
@[simp] theorem raise_stk (c : HaltCause) : (s.raise c).stk = s.stk := rfl
@[simp] theorem raise_dt (c : HaltCause) : (s.raise c).dt = s.dt := rfl
@[simp] theorem raise_st (c : HaltCause) : (s.raise c).st = s.st := rfl
@[simp] theorem raise_mem (c : HaltCause) : (s.raise c).mem = s.mem := rfl
@[simp] theorem raise_fb (c : HaltCause) : (s.raise c).fb = s.fb := rfl
@[simp] theorem raise_key (c : HaltCause) : (s.raise c).key = s.key := rfl
@[simp] theorem raise_df (c : HaltCause) : (s.raise c).df = s.df := rfl
@[simp] theorem raise_err (c : HaltCause) : (s.raise c).err = c := rfl
@[simp] theorem raise_draws (c : HaltCause) : (s.raise c).draws = s.draws := rfl
@[simp] theorem raise_reg (c : HaltCause) (q : Reg) : (s.raise c).reg q = s.reg q := rfl
@[simp] theorem raise_entry (c : HaltCause) (q : Fin 16) : (s.raise c).entry q = s.entry q := rfl
@[simp] theorem raise_memRead (c : HaltCause) (a : Nat) : (s.raise c).memRead a = s.memRead a := rfl
@[simp] theorem raise_pixel (c : HaltCause) (q : Fin 2048) : (s.raise c).pixel q = s.pixel q := rfl
@[simp] theorem raise_pressed (c : HaltCause) (q : Fin 16) : (s.raise c).pressed q = s.pressed q := rfl
@[simp] theorem raise_indexed (c : HaltCause) (o : Nat) : (s.raise c).indexed o = s.indexed o := rfl

/-! ### `memWrite` -/

@[simp] theorem memWrite_v (a : Nat) (b : Byte) : (s.memWrite a b).v = s.v := rfl
@[simp] theorem memWrite_i (a : Nat) (b : Byte) : (s.memWrite a b).i = s.i := rfl
@[simp] theorem memWrite_pc (a : Nat) (b : Byte) : (s.memWrite a b).pc = s.pc := rfl
@[simp] theorem memWrite_sp (a : Nat) (b : Byte) : (s.memWrite a b).sp = s.sp := rfl
@[simp] theorem memWrite_stk (a : Nat) (b : Byte) : (s.memWrite a b).stk = s.stk := rfl
@[simp] theorem memWrite_dt (a : Nat) (b : Byte) : (s.memWrite a b).dt = s.dt := rfl
@[simp] theorem memWrite_st (a : Nat) (b : Byte) : (s.memWrite a b).st = s.st := rfl
@[simp] theorem memWrite_mem (a : Nat) (b : Byte) : (s.memWrite a b).mem = Memory.setCell s.mem (a % Config.memSize) b := rfl
@[simp] theorem memWrite_fb (a : Nat) (b : Byte) : (s.memWrite a b).fb = s.fb := rfl
@[simp] theorem memWrite_key (a : Nat) (b : Byte) : (s.memWrite a b).key = s.key := rfl
@[simp] theorem memWrite_df (a : Nat) (b : Byte) : (s.memWrite a b).df = s.df := rfl
@[simp] theorem memWrite_err (a : Nat) (b : Byte) : (s.memWrite a b).err = s.err := rfl
@[simp] theorem memWrite_draws (a : Nat) (b : Byte) : (s.memWrite a b).draws = s.draws := rfl
@[simp] theorem memWrite_reg (a : Nat) (b : Byte) (q : Reg) : (s.memWrite a b).reg q = s.reg q := rfl
@[simp] theorem memWrite_entry (a : Nat) (b : Byte) (q : Fin 16) : (s.memWrite a b).entry q = s.entry q := rfl
@[simp] theorem memWrite_pixel (a : Nat) (b : Byte) (q : Fin 2048) : (s.memWrite a b).pixel q = s.pixel q := rfl
@[simp] theorem memWrite_pressed (a : Nat) (b : Byte) (q : Fin 16) : (s.memWrite a b).pressed q = s.pressed q := rfl
@[simp] theorem memWrite_indexed (a : Nat) (b : Byte) (o : Nat) : (s.memWrite a b).indexed o = s.indexed o := rfl

end Sys2Proof.Machine
end

