-- ==== Sys2Proof/Laws/Memory.lean ====
section
/-! SUPPORT. Memory: a read after a write, the frame of a write, and the canonical form, which every operation keeps. -/

namespace Sys2Proof.Machine

/-! ### The canonical form -/

theorem Memory.wfFrom_cons {lo a : Nat} {b : Byte} {m : Memory} :
    Memory.wfFrom lo ((a, b) :: m) = true ↔
      lo ≤ a ∧ a < 4096 ∧ b ≠ Memory.background a ∧ Memory.wfFrom (a + 1) m = true := by
  simp only [Memory.wfFrom, Bool.and_eq_true, decide_eq_true_eq, bne_iff_ne, and_assoc]

theorem Memory.wfFrom_mono {lo lo' : Nat} {m : Memory} (h : lo ≤ lo') (hm : Memory.wfFrom lo' m = true) :
    Memory.wfFrom lo m = true := by
  cases m with
  | nil => rfl
  | cons p m =>
    rw [Memory.wfFrom_cons] at hm ⊢
    exact ⟨by omega, hm.2⟩

/-- A cell below every entry reads as its reset contents. -/
theorem Memory.cell_below {lo a : Nat} {m : Memory} (hm : Memory.wfFrom lo m = true) (h : a < lo) :
    Memory.cell m a = Memory.background a := by
  induction m generalizing lo with
  | nil => rfl
  | cons p m ih =>
    obtain ⟨k, b⟩ := p
    rw [Memory.wfFrom_cons] at hm
    have hk : k ≠ a := by omega
    simp only [Memory.cell, hk, if_false]
    exact ih hm.2.2.2 (by omega)

theorem Memory.wfFrom_consEntry {lo a : Nat} {b : Byte} {m : Memory} (h : lo ≤ a) (ha : a < 4096)
    (hm : Memory.wfFrom (a + 1) m = true) : Memory.wfFrom lo (Memory.cons a b m) = true := by
  unfold Memory.cons
  split
  · exact Memory.wfFrom_mono (by omega) hm
  · rw [Memory.wfFrom_cons]; exact ⟨h, ha, ‹_›, hm⟩

theorem Memory.cell_consEntry {a : Nat} {b : Byte} {m : Memory} (hm : Memory.wfFrom (a + 1) m = true) (c : Nat) :
    Memory.cell (Memory.cons a b m) c = if c = a then b else Memory.cell m c := by
  unfold Memory.cons
  by_cases hb : b = Memory.background a <;> by_cases hc : c = a
  · subst hc; simp [hb, Memory.cell_below hm (Nat.lt_succ_self c)]
  · simp [hb, hc]
  · simp [hb, hc, Memory.cell]
  · simp [hb, hc, Memory.cell, Ne.symm hc]

/-- A write keeps the canonical form. -/
theorem Memory.wfFrom_setCell {lo a : Nat} {m : Memory} (b : Byte) (h : lo ≤ a) (ha : a < 4096)
    (hm : Memory.wfFrom lo m = true) : Memory.wfFrom lo (Memory.setCell m a b) = true := by
  induction m generalizing lo with
  | nil => exact Memory.wfFrom_consEntry h ha rfl
  | cons p m ih =>
    obtain ⟨k, c⟩ := p
    have hm' := Memory.wfFrom_cons.1 hm
    simp only [Memory.setCell]
    split
    · rw [Memory.wfFrom_cons]; exact ⟨hm'.1, hm'.2.1, hm'.2.2.1, ih (by omega) hm'.2.2.2⟩
    · split
      · exact Memory.wfFrom_consEntry h ha (by subst k; exact hm'.2.2.2)
      · exact Memory.wfFrom_consEntry h ha (by rw [Memory.wfFrom_cons]; exact ⟨by omega, hm'.2⟩)

/-- A read after a write: the value written at its place, every other cell as before. -/
theorem Memory.cell_setCell {lo a : Nat} {m : Memory} (b : Byte) (hm : Memory.wfFrom lo m = true) (c : Nat) :
    Memory.cell (Memory.setCell m a b) c = if c = a then b else Memory.cell m c := by
  induction m generalizing lo with
  | nil => exact Memory.cell_consEntry rfl c
  | cons p m ih =>
    obtain ⟨k, d⟩ := p
    have hm' := Memory.wfFrom_cons.1 hm
    simp only [Memory.setCell]
    split
    · have ih' := ih hm'.2.2.2
      simp only [Memory.cell, ih']
      split_ifs <;> first | rfl | omega
    · split
      · subst k
        rw [Memory.cell_consEntry hm'.2.2.2]
        simp only [Memory.cell]
        split_ifs <;> first | rfl | omega
      · rw [Memory.cell_consEntry (by rw [Memory.wfFrom_cons]; exact ⟨by omega, hm'.2⟩)]

/-- Equal memories are equal data: canonical memories that agree on every cell are the same list. -/
theorem Memory.ext_of_wfFrom {lo : Nat} {m n : Memory} (hm : Memory.wfFrom lo m = true) (hn : Memory.wfFrom lo n = true)
    (h : ∀ a, Memory.cell m a = Memory.cell n a) : m = n := by
  induction m generalizing lo n with
  | nil =>
    cases n with
    | nil => rfl
    | cons q n =>
      obtain ⟨k, b⟩ := q
      have hn' := Memory.wfFrom_cons.1 hn
      exact absurd (by simpa [Memory.cell] using (h k).symm) hn'.2.2.1
  | cons p m ih =>
    obtain ⟨j, c⟩ := p
    have hm' := Memory.wfFrom_cons.1 hm
    cases n with
    | nil => exact absurd (by simpa [Memory.cell] using h j) hm'.2.2.1
    | cons q n =>
      obtain ⟨k, b⟩ := q
      have hn' := Memory.wfFrom_cons.1 hn
      have hj := h j
      have hk := h k
      have hjk : j = k := by
        rcases Nat.lt_trichotomy j k with hlt | heq | hgt
        · rw [Memory.cell_below (Memory.wfFrom_cons.2 ⟨le_refl k, hn'.2⟩) hlt] at hj
          exact absurd (by simpa [Memory.cell] using hj) hm'.2.2.1
        · exact heq
        · rw [Memory.cell_below (Memory.wfFrom_cons.2 ⟨le_refl j, hm'.2⟩) hgt] at hk
          exact absurd (by simpa [Memory.cell] using hk.symm) hn'.2.2.1
      subst hjk
      have hcb : c = b := by simpa [Memory.cell] using hj
      subst hcb
      have : m = n := ih hm'.2.2.2 hn'.2.2.2 fun a => by
        by_cases ha : j = a
        · subst ha
          rw [Memory.cell_below hm'.2.2.2 (Nat.lt_succ_self j), Memory.cell_below hn'.2.2.2 (Nat.lt_succ_self j)]
        · simpa [Memory.cell, ha] using h a
      rw [this]

theorem Memory.ext_of_wf {m n : Memory} (hm : Memory.wf m = true) (hn : Memory.wf n = true)
    (h : ∀ a, Memory.cell m a = Memory.cell n a) : m = n :=
  Memory.ext_of_wfFrom hm hn h

/-! ### `memRead`, `memWrite`, `writeBytes` -/

/-- Only the address modulo 4096 counts (R62). -/
theorem memRead_mod (s : State) (a : Nat) : s.memRead (a % 4096) = s.memRead a := by
  simp [State.memRead, Config.memSize]

theorem memRead_congr {s : State} {a b : Nat} (h : a % 4096 = b % 4096) : s.memRead a = s.memRead b := by
  rw [← memRead_mod s a, h, memRead_mod]

theorem memWrite_wf {s : State} (a : Nat) (b : Byte) (h : Memory.wf s.mem = true) :
    Memory.wf (s.memWrite a b).mem = true :=
  Memory.wfFrom_setCell b (Nat.zero_le _) (Nat.mod_lt _ (by decide)) h

/-- A read after a write (R62, R63). -/
theorem memRead_memWrite {s : State} (h : Memory.wf s.mem = true) (a c : Nat) (b : Byte) :
    (s.memWrite a b).memRead c = if c % 4096 = a % 4096 then b else s.memRead c :=
  Memory.cell_setCell b h _

theorem writeBytes_wf {s : State} (a : Nat) (bs : List Byte) (h : Memory.wf s.mem = true) :
    Memory.wf (s.writeBytes a bs).mem = true := by
  induction bs generalizing s a with
  | nil => exact h
  | cons b bs ih => exact ih _ (memWrite_wf a b h)

/-- A group of writes changes memory only. -/
theorem writeBytes_eq (s : State) (a : Nat) (bs : List Byte) :
    s.writeBytes a bs = { s with mem := (s.writeBytes a bs).mem } := by
  induction bs generalizing s a with
  | nil => rfl
  | cons b bs ih => exact ih (s.memWrite a b) (a + 1)

@[simp] theorem writeBytes_v (s : State) (a : Nat) (bs : List Byte) : (s.writeBytes a bs).v = s.v := by rw [writeBytes_eq]
@[simp] theorem writeBytes_i (s : State) (a : Nat) (bs : List Byte) : (s.writeBytes a bs).i = s.i := by rw [writeBytes_eq]
@[simp] theorem writeBytes_pc (s : State) (a : Nat) (bs : List Byte) : (s.writeBytes a bs).pc = s.pc := by rw [writeBytes_eq]
@[simp] theorem writeBytes_sp (s : State) (a : Nat) (bs : List Byte) : (s.writeBytes a bs).sp = s.sp := by rw [writeBytes_eq]
@[simp] theorem writeBytes_stk (s : State) (a : Nat) (bs : List Byte) : (s.writeBytes a bs).stk = s.stk := by rw [writeBytes_eq]
@[simp] theorem writeBytes_dt (s : State) (a : Nat) (bs : List Byte) : (s.writeBytes a bs).dt = s.dt := by rw [writeBytes_eq]
@[simp] theorem writeBytes_st (s : State) (a : Nat) (bs : List Byte) : (s.writeBytes a bs).st = s.st := by rw [writeBytes_eq]
@[simp] theorem writeBytes_fb (s : State) (a : Nat) (bs : List Byte) : (s.writeBytes a bs).fb = s.fb := by rw [writeBytes_eq]
@[simp] theorem writeBytes_key (s : State) (a : Nat) (bs : List Byte) : (s.writeBytes a bs).key = s.key := by rw [writeBytes_eq]
@[simp] theorem writeBytes_df (s : State) (a : Nat) (bs : List Byte) : (s.writeBytes a bs).df = s.df := by rw [writeBytes_eq]
@[simp] theorem writeBytes_err (s : State) (a : Nat) (bs : List Byte) : (s.writeBytes a bs).err = s.err := by rw [writeBytes_eq]
@[simp] theorem writeBytes_draws (s : State) (a : Nat) (bs : List Byte) : (s.writeBytes a bs).draws = s.draws := by
  rw [writeBytes_eq]

@[simp] theorem writeBytes_reg (s : State) (a : Nat) (bs : List Byte) (r : Reg) : (s.writeBytes a bs).reg r = s.reg r := by
  simp [State.reg]
@[simp] theorem writeBytes_entry (s : State) (a : Nat) (bs : List Byte) (j : Fin 16) :
    (s.writeBytes a bs).entry j = s.entry j := by simp [State.entry]
@[simp] theorem writeBytes_pixel (s : State) (a : Nat) (bs : List Byte) (k : Fin 2048) :
    (s.writeBytes a bs).pixel k = s.pixel k := by simp [State.pixel]
@[simp] theorem writeBytes_pressed (s : State) (a : Nat) (bs : List Byte) (k : Fin 16) :
    (s.writeBytes a bs).pressed k = s.pressed k := by simp [State.pressed]

/-- A byte outside the group is unchanged. -/
theorem memRead_writeBytes_outside {s : State} (h : Memory.wf s.mem = true) (a c : Nat) (bs : List Byte)
    (hc : ∀ k < bs.length, c % 4096 ≠ (a + k) % 4096) : (s.writeBytes a bs).memRead c = s.memRead c := by
  induction bs generalizing s a with
  | nil => rfl
  | cons b bs ih =>
    have h0 := hc 0 (by simp)
    have hrest : ∀ k < bs.length, c % 4096 ≠ (a + 1 + k) % 4096 := fun k hk => by
      have := hc (k + 1) (by simpa using hk)
      rwa [show a + 1 + k = a + (k + 1) by omega]
    rw [State.writeBytes, ih (memWrite_wf a b h) (a + 1) hrest, memRead_memWrite h, if_neg (by simpa using h0)]

/-- A byte of the group reads as it was written, for a group no larger than memory. -/
theorem memRead_writeBytes_inside {s : State} (h : Memory.wf s.mem = true) (a : Nat) (bs : List Byte)
    (hlen : bs.length ≤ 4096) (k : Nat) (hk : k < bs.length) : (s.writeBytes a bs).memRead (a + k) = bs[k] := by
  induction bs generalizing s a k with
  | nil => simp at hk
  | cons b bs ih =>
    have hlen' : bs.length + 1 ≤ 4096 := by simpa using hlen
    cases k with
    | zero =>
      rw [State.writeBytes, memRead_writeBytes_outside (memWrite_wf a b h), memRead_memWrite h]
      · simp
      · intro j hj
        have : j < bs.length := hj
        omega
    | succ k =>
      have hk' : k < bs.length := by simpa using hk
      have := ih (memWrite_wf a b h) (a + 1) (by omega) k hk'
      rw [State.writeBytes, show a + (k + 1) = a + 1 + k by omega, this]
      rfl

end Sys2Proof.Machine
end

