-- ==== Sys2Proof/Laws/Ops.lean ====
section
/-! SUPPORT. The shared operations: registers, stack entries, framebuffer cells, keys, the program counter, the stack, the
flag-then-result shape, the fetch. -/

namespace Sys2Proof.Machine

/-! ### Registers and stack entries -/

theorem reg_setReg (s : State) (r q : Reg) (b : Byte) : (s.setReg r b).reg q = if q = r then b else s.reg q := by
  simp only [State.reg, State.setReg, Fin.getElem_fin, Vector.getElem_set, Fin.ext_iff, eq_comm]

@[simp] theorem reg_setReg_self (s : State) (r : Reg) (b : Byte) : (s.setReg r b).reg r = b := by simp [reg_setReg]

theorem reg_setReg_ne {q r : Reg} (s : State) (b : Byte) (h : q ≠ r) : (s.setReg r b).reg q = s.reg q := by
  simp [reg_setReg, h]

theorem entry_setEntry (s : State) (j k : Fin 16) (w : Word) :
    (s.setEntry j w).entry k = if k = j then w else s.entry k := by
  simp only [State.entry, State.setEntry, Fin.getElem_fin, Vector.getElem_set, Fin.ext_iff, eq_comm]

@[simp] theorem entry_setEntry_self (s : State) (j : Fin 16) (w : Word) : (s.setEntry j w).entry j = w := by
  simp [entry_setEntry]

/-! ### The framebuffer -/

theorem Framebuffer.cell_flip (f : Framebuffer) (k j : Fin 2048) :
    Framebuffer.cell (Framebuffer.flip f k) j = if j = k then !Framebuffer.cell f k else Framebuffer.cell f j := by
  have hj := j.isLt
  have hk := k.isLt
  have hcol : k.val % 64 < 64 := Nat.mod_lt _ (by decide)
  unfold Framebuffer.cell Framebuffer.flip
  by_cases h : j = k
  · subst h
    simp [hcol]
  · have hval : j.val ≠ k.val := fun e => h (Fin.ext e)
    rw [if_neg h, Vector.getElem_set]
    split_ifs with hrow
    · have hne : k.val % 64 ≠ j.val % 64 := by omega
      simp [BitVec.getLsbD_xor, BitVec.getLsbD_twoPow, hne, hrow]
    · rfl

@[simp] theorem Framebuffer.cell_blank (k : Fin 2048) : Framebuffer.cell Framebuffer.blank k = false := by
  simp [Framebuffer.cell, Framebuffer.blank]

/-- Framebuffers that agree on every cell are equal. -/
theorem Framebuffer.ext_cell {f g : Framebuffer} (h : ∀ k, Framebuffer.cell f k = Framebuffer.cell g k) : f = g := by
  refine Vector.ext fun row hrow => BitVec.eq_of_getLsbD_eq fun col hcol => ?_
  have := h ⟨row * 64 + col, by omega⟩
  simp only [Framebuffer.cell] at this
  have h1 : (row * 64 + col) / 64 = row := by omega
  have h2 : (row * 64 + col) % 64 = col := by omega
  simpa only [h1, h2] using this

theorem pixel_setFb (s : State) (f : Framebuffer) (k : Fin 2048) : (s.setFb f).pixel k = Framebuffer.cell f k := rfl

/-! ### Keys -/

theorem pressed_setKeys (s : State) (w : BitVec 16) (k : Fin 16) : (s.setKeys w).pressed k = w.getLsbD k.val := rfl

/-! ### The program counter -/

@[simp] theorem advance_pc (s : State) : s.advance.pc = s.pc + 2 := rfl
@[simp] theorem skipIf_pc (s : State) (c : Bool) : (s.skipIf c).pc = s.pc + if c then 4 else 2 := rfl
theorem advance_eq (s : State) : s.advance = s.setPc (s.pc + 2) := rfl
theorem skipIf_eq (s : State) (c : Bool) : s.skipIf c = s.setPc (s.pc + if c then 4 else 2) := rfl

@[simp] theorem advance_v (s : State) : s.advance.v = s.v := rfl
@[simp] theorem advance_i (s : State) : s.advance.i = s.i := rfl
@[simp] theorem advance_sp (s : State) : s.advance.sp = s.sp := rfl
@[simp] theorem advance_stk (s : State) : s.advance.stk = s.stk := rfl
@[simp] theorem advance_dt (s : State) : s.advance.dt = s.dt := rfl
@[simp] theorem advance_st (s : State) : s.advance.st = s.st := rfl
@[simp] theorem advance_mem (s : State) : s.advance.mem = s.mem := rfl
@[simp] theorem advance_fb (s : State) : s.advance.fb = s.fb := rfl
@[simp] theorem advance_key (s : State) : s.advance.key = s.key := rfl
@[simp] theorem advance_df (s : State) : s.advance.df = s.df := rfl
@[simp] theorem advance_err (s : State) : s.advance.err = s.err := rfl
@[simp] theorem advance_draws (s : State) : s.advance.draws = s.draws := rfl
@[simp] theorem advance_reg (s : State) (r : Reg) : s.advance.reg r = s.reg r := rfl
@[simp] theorem advance_entry (s : State) (j : Fin 16) : s.advance.entry j = s.entry j := rfl
@[simp] theorem advance_memRead (s : State) (a : Nat) : s.advance.memRead a = s.memRead a := rfl
@[simp] theorem advance_pixel (s : State) (k : Fin 2048) : s.advance.pixel k = s.pixel k := rfl
@[simp] theorem advance_pressed (s : State) (k : Fin 16) : s.advance.pressed k = s.pressed k := rfl

/-! ### The stack -/

/-- Everything `push` can do. -/
theorem push_eq_some {s t : State} (h : s.push = some t) :
    ∃ hs : s.sp.toNat < 16, t = (s.setEntry ⟨s.sp.toNat, hs⟩ s.pc).setSp (s.sp + 1) := by
  unfold State.push at h
  split at h
  · exact ⟨‹_›, by simpa using h.symm⟩
  · simp at h

theorem push_of_lt {s : State} (hs : s.sp.toNat < 16) :
    s.push = some ((s.setEntry ⟨s.sp.toNat, hs⟩ s.pc).setSp (s.sp + 1)) := by
  simp [State.push, hs]

/-- Everything `pop` can do. -/
theorem pop_eq_some {s t : State} {w : Word} (h : s.pop = some (w, t)) :
    ∃ hs : 0 < s.sp.toNat ∧ s.sp.toNat ≤ 16, w = s.entry ⟨s.sp.toNat - 1, by omega⟩ ∧ t = s.setSp (s.sp - 1) := by
  unfold State.pop at h
  split at h
  · rename_i hs
    simp only [Option.some.injEq, Prod.mk.injEq] at h
    exact ⟨hs, h.1.symm, h.2.symm⟩
  · simp at h

theorem pop_of_le {s : State} (hs : 0 < s.sp.toNat ∧ s.sp.toNat ≤ 16) :
    s.pop = some (s.entry ⟨s.sp.toNat - 1, by omega⟩, s.setSp (s.sp - 1)) := by
  simp [State.pop, hs]

theorem sp_add_one {n : BitVec 5} (h : n.toNat < 16) : (n + 1).toNat = n.toNat + 1 := by bv_omega

theorem sp_sub_one {n : BitVec 5} (h : 0 < n.toNat) : (n - 1).toNat = n.toNat - 1 := by bv_omega

/-! ### One register, and flag then result -/

@[simp] theorem writeAndAdvance_eq (s : State) (x : Reg) (b : Byte) : s.writeAndAdvance x b = (s.setReg x b).advance := rfl

/-- What the flag-writing shape leaves in the registers: with `f` the flag, the operands of the result are read with VF
already `f` (R9). -/
theorem flagThenResult_reg (s : State) (flag result : Byte → Byte → Byte) (x y q : Reg) :
    (s.flagThenResult flag result x y).reg q =
      let f := flag (s.reg x) (s.reg y)
      if q = x then result (if x = VF then f else s.reg x) (if y = VF then f else s.reg y)
      else if q = VF then f else s.reg q := by
  simp only [State.flagThenResult, writeAndAdvance_eq, advance_reg, reg_setReg]

/-- It writes the registers and `pc` only. -/
theorem flagThenResult_eq (s : State) (flag result : Byte → Byte → Byte) (x y : Reg) :
    s.flagThenResult flag result x y =
      ({ s with v := (s.flagThenResult flag result x y).v } : State).setPc (s.pc + 2) := rfl

/-! ### Flags -/

theorem flagByte_eq_one (c : Bool) : flagByte c = 1 ↔ c = true := by cases c <;> decide

theorem flagByte_toNat (c : Bool) : (flagByte c).toNat = c.toNat := by cases c <;> rfl

end Sys2Proof.Machine
end

