-- ==== Sys2Proof/Laws/Operands.lean ====
section
/-! SUPPORT. The operand forms: groups of registers, the key scan, digits, sprite geometry. -/

namespace Sys2Proof.Machine

/-! ### Groups of registers -/

theorem mem_regsUpTo (r x : Reg) : r ∈ regsUpTo x ↔ r.val ≤ x.val := by
  revert r x; decide

theorem length_regsUpTo (x : Reg) : (regsUpTo x).length = x.val + 1 := by
  revert x; decide

theorem getElem?_regsUpTo (x : Reg) (k : Fin 16) (h : k.val ≤ x.val) : (regsUpTo x)[k.val]? = some k := by
  revert x k; decide

/-- A group load: each register listed gets the byte at `I` plus its number, the others keep their values (R165). -/
theorem loadRegs_reg (s : State) (rs : List Reg) (q : Reg) :
    (s.loadRegs rs).reg q = if q ∈ rs then s.memRead (s.indexed q.val) else s.reg q := by
  induction rs generalizing s with
  | nil => simp [State.loadRegs]
  | cons r rs ih =>
    rw [State.loadRegs, ih]
    by_cases hq : q ∈ rs
    · simp [hq]
    · by_cases hr : q = r
      · subst hr; simp [hq]
      · simp [hq, hr, reg_setReg]

/-- A group load changes registers only. -/
theorem loadRegs_eq (s : State) (rs : List Reg) : s.loadRegs rs = { s with v := (s.loadRegs rs).v } := by
  induction rs generalizing s with
  | nil => rfl
  | cons r rs ih => exact ih _

@[simp] theorem loadRegs_i (s : State) (rs : List Reg) : (s.loadRegs rs).i = s.i := by rw [loadRegs_eq]
@[simp] theorem loadRegs_pc (s : State) (rs : List Reg) : (s.loadRegs rs).pc = s.pc := by rw [loadRegs_eq]
@[simp] theorem loadRegs_sp (s : State) (rs : List Reg) : (s.loadRegs rs).sp = s.sp := by rw [loadRegs_eq]
@[simp] theorem loadRegs_stk (s : State) (rs : List Reg) : (s.loadRegs rs).stk = s.stk := by rw [loadRegs_eq]
@[simp] theorem loadRegs_dt (s : State) (rs : List Reg) : (s.loadRegs rs).dt = s.dt := by rw [loadRegs_eq]
@[simp] theorem loadRegs_st (s : State) (rs : List Reg) : (s.loadRegs rs).st = s.st := by rw [loadRegs_eq]
@[simp] theorem loadRegs_mem (s : State) (rs : List Reg) : (s.loadRegs rs).mem = s.mem := by rw [loadRegs_eq]
@[simp] theorem loadRegs_fb (s : State) (rs : List Reg) : (s.loadRegs rs).fb = s.fb := by rw [loadRegs_eq]
@[simp] theorem loadRegs_key (s : State) (rs : List Reg) : (s.loadRegs rs).key = s.key := by rw [loadRegs_eq]
@[simp] theorem loadRegs_df (s : State) (rs : List Reg) : (s.loadRegs rs).df = s.df := by rw [loadRegs_eq]
@[simp] theorem loadRegs_err (s : State) (rs : List Reg) : (s.loadRegs rs).err = s.err := by rw [loadRegs_eq]
@[simp] theorem loadRegs_draws (s : State) (rs : List Reg) : (s.loadRegs rs).draws = s.draws := by rw [loadRegs_eq]
@[simp] theorem loadRegs_memRead (s : State) (rs : List Reg) (a : Nat) : (s.loadRegs rs).memRead a = s.memRead a := by
  simp [State.memRead]
@[simp] theorem loadRegs_entry (s : State) (rs : List Reg) (j : Fin 16) : (s.loadRegs rs).entry j = s.entry j := by
  simp [State.entry]
@[simp] theorem loadRegs_pixel (s : State) (rs : List Reg) (k : Fin 2048) : (s.loadRegs rs).pixel k = s.pixel k := by
  simp [State.pixel]
@[simp] theorem loadRegs_pressed (s : State) (rs : List Reg) (k : Fin 16) : (s.loadRegs rs).pressed k = s.pressed k := by
  simp [State.pressed]

/-! ### The key scan (R183) -/

theorem mem_allRegs (k : Fin 16) : k ∈ allRegs := by revert k; decide

theorem allRegs_ascending : allRegs.Pairwise (· < ·) := by decide

/-- An ascending scan that keeps the last hit finds the greatest hit. -/
theorem scan_eq_some (p : Fin 16 → Bool) (l : List (Fin 16)) (hl : l.Pairwise (· < ·)) (k : Fin 16) :
    l.foldl (fun found j => if p j then some j else found) none = some k ↔
      k ∈ l ∧ p k = true ∧ ∀ j ∈ l, k < j → p j = false := by
  induction l using List.reverseRecOn with
  | nil => simp
  | append_singleton l a ih =>
    obtain ⟨hl', hlast⟩ : l.Pairwise (· < ·) ∧ ∀ j ∈ l, j < a := by
      simpa [List.pairwise_append] using hl
    simp only [List.foldl_append, List.foldl_cons, List.foldl_nil, List.mem_append, List.mem_singleton]
    by_cases hp : p a = true
    · simp only [hp, if_true, Option.some.injEq]
      constructor
      · rintro rfl
        refine ⟨.inr rfl, hp, ?_⟩
        rintro j (hj | rfl) hlt
        · exact absurd hlt (Fin.not_lt.2 (Fin.le_of_lt (hlast j hj)))
        · exact absurd hlt (Fin.lt_irrefl _)
      · rintro ⟨hk | rfl, -, hmax⟩
        · have := hmax a (.inr rfl) (hlast k hk)
          simp [hp] at this
        · rfl
    · have hp' : p a = false := by simpa using hp
      simp only [hp', Bool.false_eq_true, if_false, ih hl']
      constructor
      · rintro ⟨hk, hpk, hmax⟩
        refine ⟨.inl hk, hpk, ?_⟩
        rintro j (hj | rfl) hlt
        · exact hmax j hj hlt
        · exact hp'
      · rintro ⟨hk | rfl, hpk, hmax⟩
        · exact ⟨hk, hpk, fun j hj => hmax j (.inl hj)⟩
        · simp [hp'] at hpk

theorem scan_eq_none (p : Fin 16 → Bool) (l : List (Fin 16)) :
    l.foldl (fun found j => if p j then some j else found) none = none ↔ ∀ j ∈ l, p j = false := by
  induction l using List.reverseRecOn with
  | nil => simp
  | append_singleton l a ih =>
    simp only [List.foldl_append, List.foldl_cons, List.foldl_nil, List.mem_append, List.mem_singleton]
    by_cases hp : p a = true
    · simp only [hp, if_true, reduceCtorEq, false_iff]
      intro h
      simpa [hp] using h a (.inr rfl)
    · have hp' : p a = false := by simpa using hp
      simp only [hp', Bool.false_eq_true, if_false, ih]
      exact ⟨fun h j hj => hj.elim (h j) (by rintro rfl; exact hp'), fun h j hj => h j (.inl hj)⟩

/-- The scan answers the highest pressed key. -/
theorem scanKeys_eq_some {s : State} {k : Fin 16} :
    s.scanKeys = some k ↔ s.pressed k = true ∧ ∀ j, k < j → s.pressed j = false := by
  rw [State.scanKeys, scan_eq_some _ _ allRegs_ascending]
  exact ⟨fun h => ⟨h.2.1, fun j => h.2.2 j (mem_allRegs j)⟩, fun h => ⟨mem_allRegs k, h.1, fun j _ => h.2 j⟩⟩

/-- The scan answers nothing exactly when no key is pressed. -/
theorem scanKeys_eq_none {s : State} : s.scanKeys = none ↔ ∀ k, s.pressed k = false := by
  rw [State.scanKeys, scan_eq_none]
  exact ⟨fun h k => h k (mem_allRegs k), fun h k _ => h k⟩

/-! ### Immediates and extensions -/

@[simp] theorem zextAddr_toNat (nnn : Addr) : (zextAddr nnn).toNat = nnn.toNat := by
  have := nnn.isLt
  simp only [zextAddr, BitVec.toNat_setWidth]; omega

@[simp] theorem zextByte_toNat (b : Byte) : (zextByte b).toNat = b.toNat := by
  have := b.isLt
  simp only [zextByte, BitVec.toNat_setWidth]; omega

/-- The glyph address never wraps: 0 to 1275 (R162). -/
theorem glyphAddr_toNat (b : Byte) : (glyphAddr b).toNat = b.toNat * 5 := by
  have := b.isLt
  simp only [glyphAddr, BitVec.toNat_mul, zextByte_toNat]
  have h5 : (5 : Word).toNat = 5 := rfl
  rw [h5]; omega

theorem keyOf_val (b : Byte) : (keyOf b).val = b.toNat % 16 := by
  simp [keyOf, regOfBits, BitVec.toNat_setWidth]

/-! ### Sprite geometry (R172) -/

/-- The target of a sprite pixel, row and column wrapping by themselves. -/
theorem pixelIndex_val (vx vy row col : Nat) :
    (pixelIndex vx vy row col).val = (vy + row) % 32 * 64 + (vx + col) % 64 := rfl

/-- No cell is touched twice by one drawing (R171, corner case 3). -/
theorem pixelIndex_inj {vx vy row col row' col' : Nat} (h : pixelIndex vx vy row col = pixelIndex vx vy row' col')
    (hr : row < 32) (hr' : row' < 32) (hc : col < 8) (hc' : col' < 8) : row = row' ∧ col = col' := by
  have := congrArg Fin.val h
  simp only [pixelIndex_val] at this
  omega

end Sys2Proof.Machine
end

