-- ==== Sys2Proof/Laws/Display.lean ====
section
/-! SUPPORT. The draw unit: a drawing flips the cells of the sprite's 1 bits, each once, and is a hit when one of them was
lit. -/

namespace Sys2Proof.Machine

/-- Flips each cell of a list in turn, with a hit for each that was lit. -/
def Canvas.flipAll (c : Canvas) (l : List (Fin 2048)) : Canvas := l.foldl (fun c k => c.drawPixel true k) c

/-- The cells the 1 bits of a sprite row reach, left to right. -/
def rowCells (vx vy row : Nat) (b : Byte) : List (Fin 2048) :=
  ([0, 1, 2, 3, 4, 5, 6, 7].filter (spriteBit b)).map (pixelIndex vx vy row)

/-- The cells the 1 bits of the rows from `row` on reach. -/
def spriteCells (vx vy row : Nat) : List Byte → List (Fin 2048)
  | [] => []
  | b :: bs => rowCells vx vy row b ++ spriteCells vx vy (row + 1) bs

theorem foldl_drawPixel (c : Canvas) (b : Byte) (f : Nat → Fin 2048) (cols : List Nat) :
    cols.foldl (fun c col => c.drawPixel (spriteBit b col) (f col)) c = c.flipAll ((cols.filter (spriteBit b)).map f) := by
  induction cols generalizing c with
  | nil => rfl
  | cons a cols ih =>
    rw [List.foldl_cons, ih]
    cases hb : spriteBit b a
    · simp [hb, Canvas.drawPixel]
    · simp [hb, Canvas.flipAll]

theorem drawRow_eq (c : Canvas) (vx vy row : Nat) (b : Byte) : c.drawRow vx vy row b = c.flipAll (rowCells vx vy row b) :=
  foldl_drawPixel c b _ _

theorem drawRows_eq (c : Canvas) (vx vy row : Nat) (bs : List Byte) :
    c.drawRows vx vy row bs = c.flipAll (spriteCells vx vy row bs) := by
  induction bs generalizing c row with
  | nil => rfl
  | cons b bs ih => rw [Canvas.drawRows, ih, drawRow_eq, spriteCells, Canvas.flipAll, Canvas.flipAll, Canvas.flipAll, List.foldl_append]

/-- Flipping distinct cells: those listed change, the others do not. -/
theorem flipAll_cell (c : Canvas) (l : List (Fin 2048)) (hl : l.Nodup) (k : Fin 2048) :
    Framebuffer.cell (c.flipAll l).fb k = if k ∈ l then !Framebuffer.cell c.fb k else Framebuffer.cell c.fb k := by
  induction l generalizing c with
  | nil => rfl
  | cons a l ih =>
    obtain ⟨ha, hl'⟩ := List.nodup_cons.1 hl
    have hstep : c.flipAll (a :: l) = (c.drawPixel true a).flipAll l := rfl
    rw [hstep, ih _ hl']
    simp only [Canvas.drawPixel, if_true, Framebuffer.cell_flip, List.mem_cons]
    by_cases hka : k = a
    · subst hka; simp [ha]
    · simp [hka]

/-- Flipping distinct cells is a hit exactly when one of them was lit. -/
theorem flipAll_hit (c : Canvas) (l : List (Fin 2048)) (hl : l.Nodup) :
    (c.flipAll l).hit = (c.hit || l.any (Framebuffer.cell c.fb)) := by
  induction l generalizing c with
  | nil => simp [Canvas.flipAll]
  | cons a l ih =>
    obtain ⟨ha, hl'⟩ := List.nodup_cons.1 hl
    have hstep : c.flipAll (a :: l) = (c.drawPixel true a).flipAll l := rfl
    rw [hstep, ih _ hl']
    have hany : l.any (Framebuffer.cell (Framebuffer.flip c.fb a)) = l.any (Framebuffer.cell c.fb) := by
      have hcell : ∀ j ∈ l, Framebuffer.cell (Framebuffer.flip c.fb a) j = Framebuffer.cell c.fb j := fun j hj => by
        rw [Framebuffer.cell_flip, if_neg (by rintro rfl; exact ha hj)]
      rw [Bool.eq_iff_iff, List.any_eq_true, List.any_eq_true]
      exact ⟨fun ⟨j, hj, hlit⟩ => ⟨j, hj, hcell j hj ▸ hlit⟩, fun ⟨j, hj, hlit⟩ => ⟨j, hj, (hcell j hj).symm ▸ hlit⟩⟩
    simp [Canvas.drawPixel, hany, Bool.or_assoc]

theorem mem_rowCells {vx vy row : Nat} {b : Byte} {k : Fin 2048} :
    k ∈ rowCells vx vy row b ↔ ∃ col < 8, spriteBit b col = true ∧ pixelIndex vx vy row col = k := by
  have hcols : ∀ col, col ∈ [0, 1, 2, 3, 4, 5, 6, 7] ↔ col < 8 := by
    intro col; simp only [List.mem_cons, List.not_mem_nil, or_false]; omega
  simp only [rowCells, List.mem_map, List.mem_filter, hcols, and_assoc]

theorem mem_spriteCells {vx vy row : Nat} {bs : List Byte} {k : Fin 2048} :
    k ∈ spriteCells vx vy row bs ↔
      ∃ r, ∃ h : r < bs.length, ∃ col < 8, spriteBit bs[r] col = true ∧ pixelIndex vx vy (row + r) col = k := by
  induction bs generalizing row with
  | nil => simp [spriteCells]
  | cons b bs ih =>
    rw [spriteCells, List.mem_append, mem_rowCells, ih]
    constructor
    · rintro (⟨col, hc, hb, hk⟩ | ⟨r, hr, col, hc, hb, hk⟩)
      · exact ⟨0, by simp, col, hc, hb, hk⟩
      · exact ⟨r + 1, by simpa using hr, col, hc, hb, by rw [← hk]; congr 1; omega⟩
    · rintro ⟨r, hr, col, hc, hb, hk⟩
      cases r with
      | zero => exact .inl ⟨col, hc, hb, hk⟩
      | succ r => exact .inr ⟨r, by simpa using hr, col, hc, hb, by rw [← hk]; congr 1; omega⟩

theorem nodup_spriteCells (vx vy row : Nat) (bs : List Byte) (h : row + bs.length ≤ 32) :
    (spriteCells vx vy row bs).Nodup := by
  induction bs generalizing row with
  | nil => simp [spriteCells]
  | cons b bs ih =>
    have hlen : row + 1 + bs.length ≤ 32 := by simpa [Nat.add_assoc, Nat.add_comm 1] using h
    refine List.nodup_append.2 ⟨?_, ih (row + 1) hlen, ?_⟩
    · refine List.Nodup.map_on ?_ (List.Nodup.filter _ (by decide))
      intro a ha a' ha' e
      have hcol : ∀ col ∈ [0, 1, 2, 3, 4, 5, 6, 7], col < 8 := by decide
      exact (pixelIndex_inj e (by omega) (by omega) (hcol a (List.mem_of_mem_filter ha))
        (hcol a' (List.mem_of_mem_filter ha'))).2
    · intro j hj k hk e
      obtain ⟨c, hc, -, he⟩ := mem_rowCells.1 hj
      obtain ⟨r, hr, c', hc', -, he'⟩ := mem_spriteCells.1 hk
      have := (pixelIndex_inj (he.trans (e.trans he'.symm)) (by omega) (by omega) hc hc').1
      omega

/-- Whether the sprite of `DRW Vx, Vy, n` in `s` has a 1 bit that reaches cell `k` (R172). -/
theorem mem_drawingCells {s : State} {x y : Reg} {n : Nat} {k : Fin 2048} :
    k ∈ spriteCells (s.reg x).toNat (s.reg y).toNat 0 (s.spriteRows n) ↔
      ∃ row < n, ∃ col < 8, spriteBit (s.memRead (s.indexed row)) col = true ∧
        pixelIndex (s.reg x).toNat (s.reg y).toNat row col = k := by
  rw [mem_spriteCells]
  simp [State.spriteRows]

/-- What a drawing leaves in a cell (R171). -/
theorem drawing_cell (s : State) (x y : Reg) (n : Nat) (hn : n ≤ 32) (k : Fin 2048) :
    Framebuffer.cell (s.drawing x y n).fb k =
      if k ∈ spriteCells (s.reg x).toNat (s.reg y).toNat 0 (s.spriteRows n) then !s.pixel k else s.pixel k := by
  rw [State.drawing, drawRows_eq, flipAll_cell _ _ (nodup_spriteCells _ _ _ _ (by simpa [State.spriteRows] using hn))]
  rfl

/-- When a drawing is a collision (R171). -/
theorem drawing_hit (s : State) (x y : Reg) (n : Nat) (hn : n ≤ 32) :
    (s.drawing x y n).hit = true ↔
      ∃ k ∈ spriteCells (s.reg x).toNat (s.reg y).toNat 0 (s.spriteRows n), s.pixel k = true := by
  rw [State.drawing, drawRows_eq, flipAll_hit _ _ (nodup_spriteCells _ _ _ _ (by simpa [State.spriteRows] using hn))]
  simp [State.pixel]

end Sys2Proof.Machine
end

