-- ==== Sys2Proof/Laws/PerInstr.lean ====
section
/-! SUPPORT. Statements for all instructions, one lemma per constructor. -/

namespace Sys2Proof.Laws

/-- The word the encoder writes has the fixed bits of its row of the opcode map (R96). -/
def EncodedInTable.Statement (i : Instr) : Prop := i.row ∈ opcodeMap ∧ i.row.covers (encodeWord i) = true

/-! One lemma per constructor. -/

theorem EncodedInTable.cls : EncodedInTable.Statement (.cls) :=
  ⟨by decide, by decide⟩
theorem EncodedInTable.ret : EncodedInTable.Statement (.ret) :=
  ⟨by decide, by decide⟩
theorem EncodedInTable.jp (nnn : Addr) : EncodedInTable.Statement (.jp nnn) :=
  ⟨by simp [Instr.row, opcodeMap], beq_iff_eq.2 (formatA_masked _ nnn)⟩
theorem EncodedInTable.call (nnn : Addr) : EncodedInTable.Statement (.call nnn) :=
  ⟨by simp [Instr.row, opcodeMap], beq_iff_eq.2 (formatA_masked _ nnn)⟩
theorem EncodedInTable.seImm (x : Reg) (nn : Byte) : EncodedInTable.Statement (.seImm x nn) :=
  ⟨by simp [Instr.row, opcodeMap], beq_iff_eq.2 (formatXB_masked _ x nn)⟩
theorem EncodedInTable.sneImm (x : Reg) (nn : Byte) : EncodedInTable.Statement (.sneImm x nn) :=
  ⟨by simp [Instr.row, opcodeMap], beq_iff_eq.2 (formatXB_masked _ x nn)⟩
theorem EncodedInTable.seReg (x : Reg) (y : Reg) : EncodedInTable.Statement (.seReg x y) :=
  ⟨by simp [Instr.row, opcodeMap], beq_iff_eq.2 (formatXY_masked _ x y _)⟩
theorem EncodedInTable.ldImm (x : Reg) (nn : Byte) : EncodedInTable.Statement (.ldImm x nn) :=
  ⟨by simp [Instr.row, opcodeMap], beq_iff_eq.2 (formatXB_masked _ x nn)⟩
theorem EncodedInTable.addImm (x : Reg) (nn : Byte) : EncodedInTable.Statement (.addImm x nn) :=
  ⟨by simp [Instr.row, opcodeMap], beq_iff_eq.2 (formatXB_masked _ x nn)⟩
theorem EncodedInTable.ldReg (x : Reg) (y : Reg) : EncodedInTable.Statement (.ldReg x y) :=
  ⟨by simp [Instr.row, opcodeMap], beq_iff_eq.2 (formatXY_masked _ x y _)⟩
theorem EncodedInTable.orReg (x : Reg) (y : Reg) : EncodedInTable.Statement (.orReg x y) :=
  ⟨by simp [Instr.row, opcodeMap], beq_iff_eq.2 (formatXY_masked _ x y _)⟩
theorem EncodedInTable.andReg (x : Reg) (y : Reg) : EncodedInTable.Statement (.andReg x y) :=
  ⟨by simp [Instr.row, opcodeMap], beq_iff_eq.2 (formatXY_masked _ x y _)⟩
theorem EncodedInTable.xorReg (x : Reg) (y : Reg) : EncodedInTable.Statement (.xorReg x y) :=
  ⟨by simp [Instr.row, opcodeMap], beq_iff_eq.2 (formatXY_masked _ x y _)⟩
theorem EncodedInTable.addReg (x : Reg) (y : Reg) : EncodedInTable.Statement (.addReg x y) :=
  ⟨by simp [Instr.row, opcodeMap], beq_iff_eq.2 (formatXY_masked _ x y _)⟩
theorem EncodedInTable.subReg (x : Reg) (y : Reg) : EncodedInTable.Statement (.subReg x y) :=
  ⟨by simp [Instr.row, opcodeMap], beq_iff_eq.2 (formatXY_masked _ x y _)⟩
theorem EncodedInTable.shr (x : Reg) (y : Reg) : EncodedInTable.Statement (.shr x y) :=
  ⟨by simp [Instr.row, opcodeMap], beq_iff_eq.2 (formatXY_masked _ x y _)⟩
theorem EncodedInTable.subnReg (x : Reg) (y : Reg) : EncodedInTable.Statement (.subnReg x y) :=
  ⟨by simp [Instr.row, opcodeMap], beq_iff_eq.2 (formatXY_masked _ x y _)⟩
theorem EncodedInTable.shl (x : Reg) (y : Reg) : EncodedInTable.Statement (.shl x y) :=
  ⟨by simp [Instr.row, opcodeMap], beq_iff_eq.2 (formatXY_masked _ x y _)⟩
theorem EncodedInTable.sneReg (x : Reg) (y : Reg) : EncodedInTable.Statement (.sneReg x y) :=
  ⟨by simp [Instr.row, opcodeMap], beq_iff_eq.2 (formatXY_masked _ x y _)⟩
theorem EncodedInTable.ldI (nnn : Addr) : EncodedInTable.Statement (.ldI nnn) :=
  ⟨by simp [Instr.row, opcodeMap], beq_iff_eq.2 (formatA_masked _ nnn)⟩
theorem EncodedInTable.jpV0 (nnn : Addr) : EncodedInTable.Statement (.jpV0 nnn) :=
  ⟨by simp [Instr.row, opcodeMap], beq_iff_eq.2 (formatA_masked _ nnn)⟩
theorem EncodedInTable.rnd (x : Reg) (nn : Byte) : EncodedInTable.Statement (.rnd x nn) :=
  ⟨by simp [Instr.row, opcodeMap], beq_iff_eq.2 (formatXB_masked _ x nn)⟩
theorem EncodedInTable.drw (x : Reg) (y : Reg) (n : Nat) : EncodedInTable.Statement (.drw x y n) :=
  ⟨by simp [Instr.row, opcodeMap], beq_iff_eq.2 (formatXYN_masked _ x y _)⟩
theorem EncodedInTable.skp (x : Reg) : EncodedInTable.Statement (.skp x) :=
  ⟨by simp [Instr.row, opcodeMap], beq_iff_eq.2 (formatXS_masked _ x _)⟩
theorem EncodedInTable.sknp (x : Reg) : EncodedInTable.Statement (.sknp x) :=
  ⟨by simp [Instr.row, opcodeMap], beq_iff_eq.2 (formatXS_masked _ x _)⟩
theorem EncodedInTable.ldVxDt (x : Reg) : EncodedInTable.Statement (.ldVxDt x) :=
  ⟨by simp [Instr.row, opcodeMap], beq_iff_eq.2 (formatXS_masked _ x _)⟩
theorem EncodedInTable.ldVxK (x : Reg) : EncodedInTable.Statement (.ldVxK x) :=
  ⟨by simp [Instr.row, opcodeMap], beq_iff_eq.2 (formatXS_masked _ x _)⟩
theorem EncodedInTable.ldDtVx (x : Reg) : EncodedInTable.Statement (.ldDtVx x) :=
  ⟨by simp [Instr.row, opcodeMap], beq_iff_eq.2 (formatXS_masked _ x _)⟩
theorem EncodedInTable.ldStVx (x : Reg) : EncodedInTable.Statement (.ldStVx x) :=
  ⟨by simp [Instr.row, opcodeMap], beq_iff_eq.2 (formatXS_masked _ x _)⟩
theorem EncodedInTable.addI (x : Reg) : EncodedInTable.Statement (.addI x) :=
  ⟨by simp [Instr.row, opcodeMap], beq_iff_eq.2 (formatXS_masked _ x _)⟩
theorem EncodedInTable.ldF (x : Reg) : EncodedInTable.Statement (.ldF x) :=
  ⟨by simp [Instr.row, opcodeMap], beq_iff_eq.2 (formatXS_masked _ x _)⟩
theorem EncodedInTable.ldB (x : Reg) : EncodedInTable.Statement (.ldB x) :=
  ⟨by simp [Instr.row, opcodeMap], beq_iff_eq.2 (formatXS_masked _ x _)⟩
theorem EncodedInTable.ldMemVx (x : Reg) : EncodedInTable.Statement (.ldMemVx x) :=
  ⟨by simp [Instr.row, opcodeMap], beq_iff_eq.2 (formatXS_masked _ x _)⟩
theorem EncodedInTable.ldVxMem (x : Reg) : EncodedInTable.Statement (.ldVxMem x) :=
  ⟨by simp [Instr.row, opcodeMap], beq_iff_eq.2 (formatXS_masked _ x _)⟩

end Sys2Proof.Laws
end

