-- ==== Sys2Proof/Laws/Step.lean ====
section
/-! SUPPORT. Everything a step can do, and everything the meanings with more than one outcome can do. -/

namespace Sys2Proof.Machine

/-- A step that answers a next state: nothing while halted, an instruction, or the no-op of an unknown word (R90). -/
theorem step_cases {s t : State} (h : step s = .next t) :
    (s.err ≠ .running ∧ t = s) ∨
    (s.err = .running ∧ ∃ i, decodeWord s.fetchWord = .ok i ∧ exec i s = .next t) ∨
    (s.err = .running ∧ ∃ e, decodeWord s.fetchWord = .error e ∧ t = s.advance) := by
  unfold step at h
  split at h
  · rename_i he; exact .inl ⟨by simp [he], by simpa using h.symm⟩
  · rename_i he; exact .inl ⟨by simp [he], by simpa using h.symm⟩
  · rename_i he
    split at h
    · exact .inr (.inl ⟨he, _, ‹_›, h⟩)
    · rename_i hd; exact .inr (.inr ⟨he, _, hd, by simpa [execUnknown] using h.symm⟩)

/-- Everything `RET` can do. -/
theorem execRet_cases {s t : State} (h : execRet s = .next t) :
    (s.sp = 0 ∧ t = s.raise .stackUnderflow) ∨
    ∃ hs : 0 < s.sp.toNat ∧ s.sp.toNat ≤ 16,
      t = (s.setSp (s.sp - 1)).setPc (s.entry ⟨s.sp.toNat - 1, by omega⟩ + 2) := by
  unfold execRet at h
  split at h
  · exact .inl ⟨‹_›, by simpa using h.symm⟩
  · split at h
    · rename_i hp
      obtain ⟨hs, rfl, rfl⟩ := pop_eq_some hp
      exact .inr ⟨hs, by simpa using h.symm⟩
    · simp at h

/-- Everything `CALL` can do. -/
theorem execCall_cases {nnn : Addr} {s t : State} (h : execCall nnn s = .next t) :
    (s.sp = 16 ∧ t = s.raise .stackOverflow) ∨
    ∃ hs : s.sp.toNat < 16,
      t = ((s.setEntry ⟨s.sp.toNat, hs⟩ s.pc).setSp (s.sp + 1)).setPc (zextAddr nnn) := by
  unfold execCall at h
  split at h
  · exact .inl ⟨‹_›, by simpa using h.symm⟩
  · split at h
    · rename_i hp
      obtain ⟨hs, rfl⟩ := push_eq_some hp
      exact .inr ⟨hs, by simpa using h.symm⟩
    · simp at h

/-- Everything `LD Vx, K` can do. -/
theorem execLdVxK_cases {x : Reg} {s t : State} (h : execLdVxK x s = .next t) :
    (s.scanKeys = none ∧ t = s) ∨
    ∃ k, s.scanKeys = some k ∧ t = (s.setReg x (BitVec.ofNat 8 k.val)).advance := by
  unfold execLdVxK at h
  split at h
  · exact .inr ⟨_, ‹_›, by simpa using h.symm⟩
  · exact .inl ⟨‹_›, by simpa using h.symm⟩

end Sys2Proof.Machine
end

