-- ==== Sys2Proof/Laws/Safety.lean ====
section
/-! SUPPORT. Successful runs: what the empty run and a first command need, and what every successful run gives. -/

namespace Sys2Proof.Machine

theorem not_halted_iff {s : State} : ¬ s.halted ↔ s.err = .running := not_not

@[simp] theorem safeRun_nil (s : State) : SafeRun [] s ↔ s.err = .running := not_halted_iff

@[simp] theorem safeRun_cons (c : Command) (cs : List Command) (s : State) :
    SafeRun (c :: cs) s ↔ s.err = .running ∧ ∃ t r, command c s = .next (t, r) ∧ SafeRun cs t :=
  and_congr_left' not_halted_iff

/-- A successful run is launched with `ERR = 0` (R204). -/
theorem SafeRun.running {cs : List Command} {s : State} (h : SafeRun cs s) : s.err = .running := by
  cases cs with
  | nil => exact (safeRun_nil s).1 h
  | cons c cs => exact ((safeRun_cons c cs s).1 h).1

/-- A run after a first command that completes. -/
theorem runCommands_cons {c : Command} {cs : List Command} {s t : State} {r : Response} (h : command c s = .next (t, r))
    (u : State) (rs : List Response) :
    runCommands (c :: cs) s = .next (u, rs) ↔ ∃ rs', runCommands cs t = .next (u, rs') ∧ rs = r :: rs' := by
  simp only [runCommands, h]
  cases runCommands cs t with
  | next p => simp [Prod.ext_iff, eq_comm, and_assoc]
  | fault e => simp
  | refused e => simp

/-- The two halves of a run, joined: a successful run, then one that is successful from where the first one ended. -/
theorem SafeRun.append {cs ds : List Command} {s t : State} {rs : List Response} (h : SafeRun cs s)
    (hrun : runCommands cs s = .next (t, rs)) (hd : SafeRun ds t) : SafeRun (cs ++ ds) s := by
  induction cs generalizing s rs with
  | nil =>
    cases hrun
    exact hd
  | cons c cs ih =>
    obtain ⟨hs, u, r, hc, hrest⟩ := (safeRun_cons c cs s).1 h
    obtain ⟨rs', hrun', -⟩ := (runCommands_cons hc t rs).1 hrun
    exact (safeRun_cons c (cs ++ ds) s).2 ⟨hs, u, r, hc, ih hrest hrun'⟩

/-- A successful run completes, in a state that is not halted. -/
theorem SafeRun.completes {cs : List Command} {s : State} (h : SafeRun cs s) :
    ∃ t rs, runCommands cs s = .next (t, rs) ∧ t.err = .running := by
  induction cs generalizing s with
  | nil => exact ⟨s, [], rfl, h.running⟩
  | cons c cs ih =>
    obtain ⟨-, u, r, hc, hrest⟩ := (safeRun_cons c cs s).1 h
    obtain ⟨t, rs, hrun, ht⟩ := ih hrest
    exact ⟨t, r :: rs, (runCommands_cons hc t _).2 ⟨rs, hrun, rfl⟩, ht⟩

end Sys2Proof.Machine
end

