-- ==== Sys2Proof/Tests/Slice0.lean ====
section
/-! SUPPORT. The model's own tests: what is ill-formed, decoding by words written out bit by bit from 30_encoding.md R92 and
R96, one step per instruction from the vectors of 95_test_vectors.md (cited by their ids), and a witness for every
obligation that has hypotheses. -/

namespace Sys2Proof.Tests

open Sys2Proof Sys2Proof.Machine

/-! ### Well-formedness -/

theorem test_drw_sixteen_rows_is_ill_formed : Instr.wf (.drw 0 0 16) = false := by decide

theorem test_drw_fifteen_rows_is_well_formed : Instr.wf (.drw 0 0 15) = true := by decide

/-- L4. -/
theorem test_image_of_3585_bytes_does_not_fit : imageFits (List.replicate 3585 0) = false := by
  rw [imageFits, List.length_replicate]; decide

/-- L3. -/
theorem test_image_of_3584_bytes_fits : imageFits (List.replicate 3584 0) = true := by
  rw [imageFits, List.length_replicate]; decide

/-! ### Decoding, one word of every constructor, bit by bit -/

theorem test_decode_cls : decodeWord 0b0000000011100000 = .ok .cls := by decide

theorem test_decode_ret : decodeWord 0b0000000011101110 = .ok .ret := by decide

theorem test_decode_jp : decodeWord 0b0001101010111100 = .ok (.jp 0xABC) := by decide

theorem test_decode_call : decodeWord 0b0010101010111100 = .ok (.call 0xABC) := by decide

theorem test_decode_seImm : decodeWord 0b0011000101000010 = .ok (.seImm 1 0x42) := by decide

theorem test_decode_sneImm : decodeWord 0b0100000101000010 = .ok (.sneImm 1 0x42) := by decide

theorem test_decode_seReg : decodeWord 0b0101000100100000 = .ok (.seReg 1 2) := by decide

theorem test_decode_ldImm : decodeWord 0b0110111101111011 = .ok (.ldImm 15 0x7B) := by decide

theorem test_decode_addImm : decodeWord 0b0111000111111111 = .ok (.addImm 1 0xFF) := by decide

theorem test_decode_ldReg : decodeWord 0b1000000100100000 = .ok (.ldReg 1 2) := by decide

theorem test_decode_orReg : decodeWord 0b1000000100100001 = .ok (.orReg 1 2) := by decide

theorem test_decode_andReg : decodeWord 0b1000000100100010 = .ok (.andReg 1 2) := by decide

theorem test_decode_xorReg : decodeWord 0b1000000100100011 = .ok (.xorReg 1 2) := by decide

theorem test_decode_addReg : decodeWord 0b1000111100010100 = .ok (.addReg 15 1) := by decide

theorem test_decode_subReg : decodeWord 0b1000000011110101 = .ok (.subReg 0 15) := by decide

theorem test_decode_shr : decodeWord 0b1000001110100110 = .ok (.shr 3 10) := by decide

theorem test_decode_subnReg : decodeWord 0b1000000000010111 = .ok (.subnReg 0 1) := by decide

theorem test_decode_shl : decodeWord 0b1000001110101110 = .ok (.shl 3 10) := by decide

theorem test_decode_sneReg : decodeWord 0b1001001101000000 = .ok (.sneReg 3 4) := by decide

theorem test_decode_ldI : decodeWord 0b1010111111111111 = .ok (.ldI 0xFFF) := by decide

theorem test_decode_jpV0 : decodeWord 0b1011001100000000 = .ok (.jpV0 0x300) := by decide

theorem test_decode_rnd : decodeWord 0b1100001100001111 = .ok (.rnd 3 0x0F) := by decide

theorem test_decode_drw : decodeWord 0b1101000100101111 = .ok (.drw 1 2 15) := by decide

theorem test_decode_skp : decodeWord 0b1110001010011110 = .ok (.skp 2) := by decide

theorem test_decode_sknp : decodeWord 0b1110001010100001 = .ok (.sknp 2) := by decide

theorem test_decode_ldVxDt : decodeWord 0b1111000100000111 = .ok (.ldVxDt 1) := by decide

theorem test_decode_ldVxK : decodeWord 0b1111010100001010 = .ok (.ldVxK 5) := by decide

theorem test_decode_ldDtVx : decodeWord 0b1111011100010101 = .ok (.ldDtVx 7) := by decide

theorem test_decode_ldStVx : decodeWord 0b1111001100011000 = .ok (.ldStVx 3) := by decide

theorem test_decode_addI : decodeWord 0b1111000100011110 = .ok (.addI 1) := by decide

theorem test_decode_ldF : decodeWord 0b1111001000101001 = .ok (.ldF 2) := by decide

theorem test_decode_ldB : decodeWord 0b1111100100110011 = .ok (.ldB 9) := by decide

theorem test_decode_ldMemVx : decodeWord 0b1111000101010101 = .ok (.ldMemVx 1) := by decide

theorem test_decode_ldVxMem : decodeWord 0b1111111101100101 = .ok (.ldVxMem 15) := by decide

/-- Whether the decoder finds no instruction. -/
def unknown (w : Word) : Bool :=
  match decodeWord w with
  | .ok _ => false
  | .error e => e == .unknownWord w

/-- X1 to X5. -/
theorem test_unknown_words_of_families_0_and_5 :
    List.all [0x0000, 0x0123, 0x00E1, 0x00FE, 0x01E0, 0x0FEE, 0x5121, 0x512F] unknown = true := by decide

/-- X6, X7. -/
theorem test_unknown_words_of_families_8_and_9 :
    List.all [0x9121, 0x8128, 0x8129, 0x812A, 0x812B, 0x812C, 0x812D, 0x812F] unknown = true := by decide

/-- X8, X9. -/
theorem test_unknown_words_of_families_E_and_F :
    List.all [0xE200, 0xE29F, 0xE2A0, 0xE19D, 0xF200, 0xF2FF, 0xF075, 0xF085, 0xF030, 0xF002, 0xF01F] unknown = true := by decide

theorem test_one_byte_is_no_instruction : decode [0x00] = .error .truncated := by decide

theorem test_decode_leaves_the_rest : decode [0x61, 0x42, 0x80] = .ok (.ldImm 1 0x42, [0x80]) := by decide

theorem test_decodeTableWord_reads_the_word : decodeTableWord 16 0x8014 = some (.addReg 0 1) := by decide

theorem test_decodeTableWord_refuses : decodeTableWord 16 0xF075 = none := by decide

/-! ### One step -/

/-- Whether an outcome is the next state `a` (or, of a command, the next state and the response `a`). -/
def answers {S F R : Type} [DecidableEq S] (o : Host.Outcome S F R) (a : S) : Bool :=
  match o with
  | .next b => decide (b = a)
  | .fault _ => false
  | .refused _ => false

theorem eq_of_answers {S F R : Type} [DecidableEq S] {o : Host.Outcome S F R} {a : S} (h : answers o a = true) :
    o = .next a := by
  cases o with
  | next b => exact congrArg _ (of_decide_eq_true h)
  | fault _ => exact absurd h (by simp [answers])
  | refused _ => exact absurd h (by simp [answers])

/-- `s` with the word `w` where the next step fetches. -/
def fetching (w : Nat) (s : State) : State := s.withFetchWord 16 w

/-- Whether `s` steps to a next state with `p`. -/
def after (s : State) (p : State → Bool) : Bool :=
  match step s with
  | .next t => p t
  | .fault _ => false
  | .refused _ => false

/-- A blank screen but for the rows listed. -/
def screen (rows : List (Fin 32 × BitVec 64)) : Framebuffer := rows.foldl (fun f r => f.set r.1 r.2) Framebuffer.blank

/-- A state with the registers V0 and V1. -/
def withV01 (a b : Byte) : State := (State.reset.setReg 0 a).setReg 1 b

/-- G1. -/
theorem test_cls_G1 :
    after (fetching 0x00E0 ((State.reset.setFb (screen [(0, 0x21), (31, 0x8000000000000000)])).setReg 15 1)) (fun t => t.fb == screen [] && t.df && t.reg 15 == 1 && t.pc == 0x202) = true := by decide

/-- F1. -/
theorem test_ret_F1 :
    after (fetching 0x00EE (((State.reset.setPc 0x20C).setSp 1).setEntry 0 0x204)) (fun t => t.pc == 0x206 && t.sp == 0 && t.entry 0 == 0x204 && t.err == .running) = true := by decide

/-- F2. -/
theorem test_ret_F2 :
    after (fetching 0x00EE (State.reset.setPc 0x300)) (fun t => t.pc == 0x300 && t.sp == 0 && t.err == .stackUnderflow) = true := by decide

/-- F4. -/
theorem test_jp_F4 :
    after (fetching 0x1FFF State.reset) (fun t => t.pc == 0xFFF) = true := by decide

/-- F6. -/
theorem test_call_F6 :
    after (fetching 0x2ABC ((State.reset.setPc 0xFFE).setSp 15)) (fun t => t.entry 15 == 0xFFE && t.sp == 16 && t.pc == 0xABC && t.err == .running) = true := by decide

/-- F7. -/
theorem test_call_F7 :
    after (fetching 0x2ABC ((State.reset.setPc 0x400).setSp 16)) (fun t => t.pc == 0x400 && t.sp == 16 && t.err == .stackOverflow && t.entry 15 == 0) = true := by decide

/-- F10. -/
theorem test_jpV0_F10 :
    after (fetching 0xBFFF (withV01 0xFF 0)) (fun t => t.pc == 0x10FE) = true := by decide

/-- F11. -/
theorem test_jpV0_F11 :
    after (fetching 0xB300 (State.reset.setReg 3 0x55)) (fun t => t.pc == 0x300) = true := by decide

/-- K1. -/
theorem test_seImm_K1 :
    after (fetching 0x3142 (withV01 0 0x42)) (fun t => t.pc == 0x204) = true := by decide

/-- K11: the skip wraps. -/
theorem test_seImm_K11 :
    after (fetching 0x3000 (State.reset.setPc 0xFFFE)) (fun t => t.pc == 0x0002) = true := by decide

/-- K3. -/
theorem test_sneImm_K3 :
    after (fetching 0x4142 (withV01 0 0x42)) (fun t => t.pc == 0x202) = true := by decide

/-- K4. -/
theorem test_sneImm_K4 :
    after (fetching 0x4142 (withV01 0 0x43)) (fun t => t.pc == 0x204) = true := by decide

/-- K5. -/
theorem test_seReg_K5 :
    after (fetching 0x5120 ((withV01 0 7).setReg 2 7)) (fun t => t.pc == 0x204) = true := by decide

/-- K6. -/
theorem test_seReg_K6 :
    after (fetching 0x5120 ((withV01 0 7).setReg 2 8)) (fun t => t.pc == 0x202) = true := by decide

/-- K7. -/
theorem test_sneReg_K7 :
    after (fetching 0x9120 ((withV01 0 7).setReg 2 7)) (fun t => t.pc == 0x202) = true := by decide

/-- K8. -/
theorem test_sneReg_K8 :
    after (fetching 0x9120 ((withV01 0 7).setReg 2 8)) (fun t => t.pc == 0x204) = true := by decide

/-- Y5: the low nibble of V2 is the key. -/
theorem test_skp_Y5 :
    after (fetching 0xE29E ((State.reset.setReg 2 0x17).setKeys 0x0080)) (fun t => t.pc == 0x204) = true := by decide

/-- Y2. -/
theorem test_skp_Y2 :
    after (fetching 0xE29E (State.reset.setReg 2 7)) (fun t => t.pc == 0x202) = true := by decide

/-- Y3. -/
theorem test_sknp_Y3 :
    after (fetching 0xE2A1 (State.reset.setReg 2 7)) (fun t => t.pc == 0x204) = true := by decide

/-- Y6. -/
theorem test_sknp_Y6 :
    after (fetching 0xE2A1 ((State.reset.setReg 2 0xF0).setKeys 0x0001)) (fun t => t.pc == 0x202) = true := by decide

/-- A1. -/
theorem test_ldImm_A1 :
    after (fetching 0x6F7B State.reset) (fun t => t.reg 15 == 0x7B && t.pc == 0x202) = true := by decide

/-- A2: no carry flag. -/
theorem test_addImm_A2 :
    after (fetching 0x7001 (withV01 0xFF 0)) (fun t => t.reg 0 == 0 && t.reg 15 == 0) = true := by decide

/-- A5. -/
theorem test_ldReg_A5 :
    after (fetching 0x8120 (State.reset.setReg 2 0xAB)) (fun t => t.reg 1 == 0xAB && t.reg 2 == 0xAB) = true := by decide

/-- A6: VF is kept. -/
theorem test_orReg_A6 :
    after (fetching 0x8121 (((withV01 0 0xF0).setReg 2 0x0F).setReg 15 0x77)) (fun t => t.reg 1 == 0xFF && t.reg 15 == 0x77) = true := by decide

/-- A7. -/
theorem test_andReg_A7 :
    after (fetching 0x8122 ((withV01 0 0xF0).setReg 2 0x3C)) (fun t => t.reg 1 == 0x30) = true := by decide

/-- A8. -/
theorem test_xorReg_A8 :
    after (fetching 0x8123 ((withV01 0 0xF0).setReg 2 0x3C)) (fun t => t.reg 1 == 0xCC) = true := by decide

/-- S6, the source's own example. -/
theorem test_addReg_S6 :
    after (fetching 0x8014 (withV01 0xF0 0x20)) (fun t => t.reg 0 == 0x10 && t.reg 15 == 1 && t.reg 1 == 0x20 && t.pc == 0x202) = true := by decide

/-- A13. -/
theorem test_addReg_A13 :
    after (fetching 0x8F14 ((withV01 0 2).setReg 15 0xFF)) (fun t => t.reg 15 == 3) = true := by decide

/-- S7, the source's own example. -/
theorem test_subReg_S7 :
    after (fetching 0x8015 (withV01 0x10 0x20)) (fun t => t.reg 0 == 0xF0 && t.reg 15 == 0) = true := by decide

/-- A25. -/
theorem test_subReg_A25 :
    after (fetching 0x80F5 ((withV01 0x30 0).setReg 15 0x20)) (fun t => t.reg 0 == 0x2F && t.reg 15 == 1) = true := by decide

/-- A30: Y is ignored. -/
theorem test_shr_A30 :
    after (fetching 0x83A6 ((State.reset.setReg 3 0xFE).setReg 10 1)) (fun t => t.reg 3 == 0x7F && t.reg 15 == 0 && t.reg 10 == 1) = true := by decide

/-- A31. -/
theorem test_shr_A31 :
    after (fetching 0x8F06 (State.reset.setReg 15 0xFF)) (fun t => t.reg 15 == 0) = true := by decide

/-- A33. -/
theorem test_subnReg_A33 :
    after (fetching 0x8017 (withV01 0x30 0x10)) (fun t => t.reg 0 == 0xE0 && t.reg 15 == 0) = true := by decide

/-- A37. -/
theorem test_subnReg_A37 :
    after (fetching 0x80F7 ((withV01 0x10 0).setReg 15 0x20)) (fun t => t.reg 0 == 0xF1 && t.reg 15 == 1) = true := by decide

/-- A40. -/
theorem test_shl_A40 :
    after (fetching 0x830E (State.reset.setReg 3 0x81)) (fun t => t.reg 3 == 2 && t.reg 15 == 1) = true := by decide

/-- A43. -/
theorem test_shl_A43 :
    after (fetching 0x8F0E (State.reset.setReg 15 0x80)) (fun t => t.reg 15 == 2) = true := by decide

/-- A45: the draw is an argument, for the draw of a step is a free value. -/
theorem test_rnd_A45 : (rndWith 0xA7 3 0x0F State.reset).reg 3 = 0x07 := by decide

/-- A46, for every draw: the step completes and V3 is 0. -/
theorem test_rnd_A46 : ∃ t, step (fetching 0xC300 State.reset) = .next t ∧ t.reg 3 = 0 := by
  refine ⟨_, rfl, ?_⟩
  show Config.rndByte 0 &&& 0 = 0
  exact BitVec.and_zero

/-- M1. -/
theorem test_ldI_M1 :
    after (fetching 0xAFFF (State.reset.setI 0xFFFF)) (fun t => t.i == 0xFFF && t.pc == 0x202) = true := by decide

/-- M6: the flag is of the unreduced sum. -/
theorem test_addI_M6 :
    after (fetching 0xF11E ((withV01 0 1).setI 0xFFFF)) (fun t => t.i == 0 && t.reg 15 == 1) = true := by decide

/-- M7: the new VF is added. -/
theorem test_addI_M7 :
    after (fetching 0xFF1E ((State.reset.setReg 15 0x20).setI 0x100)) (fun t => t.i == 0x100 && t.reg 15 == 0) = true := by decide

/-- M11. -/
theorem test_ldF_M11 :
    after (fetching 0xF229 (State.reset.setReg 2 0xFF)) (fun t => t.i == 0x4FB) = true := by decide

/-- M12. -/
theorem test_ldB_M12 :
    after (fetching 0xF033 ((withV01 234 0).setI 0x300)) (fun t => t.memRead 0x300 == 2 && t.memRead 0x301 == 3 && t.memRead 0x302 == 4 && t.i == 0x300) = true := by decide

/-- M16: the addresses wrap one by one. -/
theorem test_ldB_M16 :
    after (fetching 0xF033 ((withV01 255 0).setI 0xFFF)) (fun t => t.memRead 0xFFF == 2 && t.memRead 0 == 5 && t.memRead 1 == 5) = true := by decide

/-- M17. -/
theorem test_ldMemVx_M17 :
    after (fetching 0xF155 (((withV01 0x11 0x22).setReg 2 0x33).setI 0x400)) (fun t => t.memRead 0x400 == 0x11 && t.memRead 0x401 == 0x22 && t.memRead 0x402 == 0 && t.i == 0x402) = true := by decide

/-- M19: wraps into the font. -/
theorem test_ldMemVx_M19 :
    after (fetching 0xF255 ((((withV01 0xA1 0xA2).setReg 2 0xA3)).setI 0xFFE)) (fun t => t.memRead 0xFFE == 0xA1 && t.memRead 0xFFF == 0xA2 && t.memRead 0 == 0xA3 && t.i == 0x1001) = true := by decide

/-- M21. -/
theorem test_ldVxMem_M21 :
    after (fetching 0xF265 ((State.reset.writeBytes 0x300 [2, 3, 4, 5]).setI 0x300)) (fun t => t.reg 0 == 2 && t.reg 1 == 3 && t.reg 2 == 4 && t.reg 3 == 0 && t.i == 0x303) = true := by decide

/-- M22. -/
theorem test_ldVxMem_M22 :
    after (fetching 0xF165 ((State.reset.writeBytes 0xFFF [0x7E]).setI 0xFFF)) (fun t => t.reg 0 == 0x7E && t.reg 1 == 0xF0 && t.i == 0x1001) = true := by decide

/-- G6: a collision, and the bit order. -/
theorem test_drw_G6 :
    after (fetching 0xD011 (((State.reset.setFb (screen [(0, 0b110)])).writeBytes 0x300 [0xC0]).setI 0x300)) (fun t => t.fb == screen [(0, 0b101)] && t.reg 15 == 1 && t.df) = true := by decide

/-- G12: both coordinates wrap. -/
theorem test_drw_G12 :
    after (fetching 0xD012 (((withV01 62 31).writeBytes 0x20A [0xC0, 0xFF]).setI 0x20A)) (fun t => t.fb == screen [(31, 0xC000000000000000), (0, 0xC00000000000003F)] && t.reg 15 == 0 && t.df && t.pc == 0x202) = true := by decide

/-- Y7. -/
theorem test_ldVxDt_Y7 :
    after (fetching 0xF107 (State.reset.setDt 6)) (fun t => t.reg 1 == 6 && t.dt == 6) = true := by decide

/-- Y12: the highest key. -/
theorem test_ldVxK_Y12 :
    after (fetching 0xF50A (State.reset.setKeys 0x0088)) (fun t => t.reg 5 == 7 && t.pc == 0x202) = true := by decide

/-- Y11: nothing changes. -/
theorem test_ldVxK_Y11 :
    step (fetching 0xF50A (State.reset.setReg 5 9)) = .next (fetching 0xF50A (State.reset.setReg 5 9)) ∧
      stepStatus (fetching 0xF50A (State.reset.setReg 5 9)) = .waitKey :=
  ⟨eq_of_answers (by decide), by decide⟩

/-- Y8. -/
theorem test_ldDtVx_Y8 :
    after (fetching 0xF015 ((withV01 7 0).setDt 3)) (fun t => t.dt == 7 && t.st == 0) = true := by decide

/-- Y9. -/
theorem test_ldStVx_Y9 :
    after (fetching 0xF318 (State.reset.setReg 3 2)) (fun t => t.st == 2 && t.soundOn && t.dt == 0) = true := by decide

/-- X10: an unknown word is a no-op, and `pc` wraps. -/
theorem test_unknown_X10 :
    after (fetching 0xFFFF (State.reset.setPc 0xFFFE)) (fun t => t.pc == 0x0000) = true ∧
      stepStatus (fetching 0xFFFF (State.reset.setPc 0xFFFE)) = .unknownOpcode := by decide

/-- T1: a fetch across the end of memory. -/
theorem test_fetch_T1 :
    after (((State.reset.writeBytes 0xFFF [0x6A, 0x01]).setPc 0xFFF)) (fun t => t.reg 10 == 1 && t.pc == 0x1001) = true := by
  decide

/-- T4: an odd `pc`. -/
theorem test_fetch_T4 :
    after ((State.reset.writeBytes 0x201 [0x60, 0x07]).setPc 0x201) (fun t => t.reg 0 == 7 && t.pc == 0x203) = true := by
  decide

/-! ### Commands -/

/-- L8: reset, then a step. -/
theorem test_L8 :
    command .step State.reset = .next (State.reset.setPc 0x202, .stepStatus .unknownOpcode) :=
  eq_of_answers (by decide)

/-- L5: an odd image; S5's first word otherwise. -/
theorem test_L5 : (State.reset.loadProgram [0x12]).1.fetchWord = 0x1200 := by decide

/-- L6. -/
theorem test_L6 :
    command .initializeBlock ((((State.reset.setSp 16).setKeys 0x10).setDf true).raise .stackOverflow) =
      .next (State.reset, .done) :=
  eq_of_answers (by decide)

/-- Y16 and Y17: the last tick of a sound, and the one before it. -/
theorem test_Y16_Y17 :
    (State.reset.setSt 1).updateTimers = (State.reset, .off) ∧
      (State.reset.setSt 2).updateTimers = (State.reset.setSt 1, .on) := by decide

/-- Y18 and Y19: ticks run while halted. -/
theorem test_Y18_Y19 :
    State.reset.updateTimers = (State.reset, .none) ∧
      (((State.reset.setDt 255).setSt 255).raise .stackOverflow).updateTimers =
        (((State.reset.setDt 254).setSt 254).raise .stackOverflow, .on) := by decide

/-- Y20. -/
theorem test_Y20 :
    (State.reset.setKey 4 true).pressed 4 = true ∧ (State.reset.setKey 4 true).setKey 4 false = State.reset := by decide

/-- S1, S5: a program loaded and its first step run. -/
theorem test_S5 :
    runCommands [.loadProgram [0x61, 0x42], .step] (State.reset.setDt 9) =
      .next ((((State.reset.writeBytes 0x200 [0x61, 0x42]).setReg 1 0x42).setPc 0x202),
        [.loadStatus .ok, .stepStatus .ok]) :=
  eq_of_answers (by decide)

/-- L9: the reset contents of memory, at both ends of the font. -/
theorem test_L9 :
    [0, 1, 2, 3, 4].map State.reset.memRead = [0xF0, 0x90, 0x90, 0x90, 0xF0] ∧
      [79, 80, 4095].map State.reset.memRead = [0x80, 0, 0] := by decide

/-- R204: a run that raises is no successful run, though a reset follows and its last state is not halted. -/
theorem test_reset_does_not_save_a_run :
    ¬ SafeRun [.step, .initializeBlock] (fetching 0x00EE State.reset) := by
  have hraise : command .step (fetching 0x00EE State.reset) =
      .next ((fetching 0x00EE State.reset).raise .stackUnderflow, .stepStatus .stackUnderflow) := eq_of_answers (by decide)
  rintro ⟨-, t, r, ht, hrest⟩
  rw [hraise] at ht
  cases ht
  exact hrest.1 (by unfold State.halted; decide)

/-! ### Witnesses: the hypotheses of each obligation can be met

The states are reset but for what is said; a halted machine, a full and an empty stack, both ends of each range. -/

/-- A legal state that is not reset: a full stack, memory with one entry, a lit cell, a halt. -/
def halted : State := ((((State.reset.setSp 16).writeBytes 0xFFF [1]).setFb (screen [(0, 1)])).raise .stackOverflow)

theorem witness_EveryStepKeepsInvariant :
    halted.Inv ∧ step halted = .next halted ∧ State.reset.Inv ∧ step State.reset = .next State.reset.advance :=
  ⟨⟨by decide, by decide⟩, eq_of_answers (by decide), ⟨by decide, by decide⟩, eq_of_answers (by decide)⟩

theorem witness_EveryCommandKeepsInvariant :
    halted.Inv ∧ command .updateTimers halted = .next (halted, .notification .none) :=
  ⟨⟨by decide, by decide⟩, eq_of_answers (by decide)⟩

theorem witness_StepAlwaysAnswersNextState : halted.Inv ∧ State.reset.Inv :=
  ⟨⟨by decide, by decide⟩, ⟨by decide, by decide⟩⟩

theorem witness_StepRunsTheFetchedInstruction :
    (fetching 0x8014 State.reset).err = .running ∧
      decodeWord (fetching 0x8014 State.reset).fetchWord = .ok (.addReg 0 1) := by decide

theorem witness_UnknownWordOnlyAdvancesPc :
    State.reset.err = .running ∧ decodeWord State.reset.fetchWord = .error (.unknownWord 0) := by decide

theorem witness_HaltedStepChangesNothing : halted.halted ∧ (State.reset.raise .stackUnderflow).halted :=
  ⟨fun h => absurd h (by decide), fun h => absurd h (by decide)⟩

theorem witness_PlacedWordIsFetched : halted.Inv :=
  ⟨by decide, by decide⟩

theorem witness_DecodeOfEncodeIsIdentity :
    Instr.wf (.drw 15 15 15) = true ∧ Instr.wf (.drw 0 0 0) = true ∧ Instr.wf (.shr 1 2) = true := by decide

theorem witness_EncodeOfDecodeIsIdentity : decodeWord 0xDFFF = .ok (.drw 15 15 15) := by decide

theorem witness_UnknownWordsAreExactlyThese :
    (familyOf 0x0000 = 0 ∧ (0x0000 : Word) ≠ 0x00E0 ∧ (0x0000 : Word) ≠ 0x00EE) ∧ (familyOf 0x512F = 5 ∧ fieldN 0x512F ≠ 0) ∧
      (familyOf 0x8128 = 8 ∧ fieldN 0x8128 = 8) ∧ (familyOf 0x9121 = 9 ∧ fieldN 0x9121 ≠ 0) ∧
      (familyOf 0xE29F = 0xE ∧ fieldNN 0xE29F = 0x9F) ∧ (familyOf 0xFFFF = 0xF ∧ fieldNN 0xFFFF = 0xFF) := by decide

theorem witness_JumpSetsPcToAddress : (0x1FFF : Word) &&& 0xF000 = 0x1000 := by decide

theorem witness_CallPushesItsOwnAddress : State.reset.sp.toNat < 16 ∧ (State.reset.setSp 15).sp.toNat < 16 := by decide

theorem witness_CallOnFullStackOnlySetsErr : (State.reset.setSp 16).sp = 16 := by decide

theorem witness_ReturnGoesToEntryPlusTwo :
    (0 < (State.reset.setSp 1).sp.toNat ∧ (State.reset.setSp 1).sp.toNat ≤ 16) ∧
      (0 < (State.reset.setSp 16).sp.toNat ∧ (State.reset.setSp 16).sp.toNat ≤ 16) := by decide

theorem witness_ReturnOnEmptyStackOnlySetsErr : State.reset.sp = 0 := by decide

theorem witness_ReturnComesBackAfterCall :
    (State.reset.setSp 15).sp.toNat < 16 ∧
      exec (.call 0xABC) (State.reset.setSp 15) = .next (((State.reset.setSp 16).setEntry 15 0x200).setPc 0xABC) :=
  ⟨by decide, eq_of_answers (by decide)⟩

theorem witness_ImmediateSkips :
    (0x3142 : Word) &&& 0xF000 = 0x3000 ∧ (0x4142 : Word) &&& 0xF000 = 0x4000 := by decide

theorem witness_RegisterSkips :
    (0x5120 : Word) &&& 0xF00F = 0x5000 ∧ (0x9120 : Word) &&& 0xF00F = 0x9000 ∧
      (familyOf 0x512F = 5 ∧ fieldN 0x512F ≠ 0) ∧ (familyOf 0x9121 = 9 ∧ fieldN 0x9121 ≠ 0) := by decide

theorem witness_KeySkips : (15 : Fin 16).val = ((State.reset.setReg 2 0xFF).reg 2).toNat % 16 := by decide

theorem witness_ImmediateLoadAndAdd :
    (0x6F7B : Word) &&& 0xF000 = 0x6000 ∧ (0x7FFF : Word) &&& 0xF000 = 0x7000 := by decide

theorem witness_AssignAndLogic :
    (0x8FF0 : Word) &&& 0xF00F = 0x8000 ∧ (0x8FF1 : Word) &&& 0xF00F = 0x8001 ∧ (0x8FF2 : Word) &&& 0xF00F = 0x8002 ∧
      (0x8FF3 : Word) &&& 0xF00F = 0x8003 := by decide

/-- The register cases of R146, R147 and R149: each of the five premises, with the others false. -/
theorem witness_AddSetsCarry :
    ((0 : Reg) ≠ 15 ∧ (1 : Reg) ≠ 15) ∧ ((15 : Reg) = 15 ∧ (1 : Reg) ≠ 15) ∧ ((0 : Reg) ≠ 15 ∧ (15 : Reg) = 15) := by decide

theorem witness_SubSetsNoBorrow : ((14 : Reg) ≠ 15 ∧ (14 : Reg) ≠ 15) ∧ ((15 : Reg) = 15 ∧ (14 : Reg) ≠ 15) := by decide

theorem witness_SubnSetsNoBorrow : ((14 : Reg) ≠ 15 ∧ (15 : Reg) = 15) ∧ ((15 : Reg) = 15 ∧ (14 : Reg) ≠ 15) := by decide

theorem witness_ShiftsMoveOneBitIntoVF : (14 : Reg) ≠ 15 ∧ (15 : Reg) = 15 := by decide

theorem witness_IndexLoads :
    (0xAFFF : Word) &&& 0xF000 = 0xA000 ∧ (0xFF29 : Word) &&& 0xF0FF = 0xF029 := by decide

theorem witness_BcdStoresThreeDigits : Memory.wf halted.mem = true ∧ Memory.wf [(0, 1), (4095, 1)] = true := by decide

/-- The last register of each group, and an address that wraps. -/
theorem witness_DumpStoresRegistersUpToX :
    Memory.wf halted.mem = true ∧ (15 : Reg) ≤ 15 ∧ (State.reset.setI 0xFFFF).indexed 15 = 0x1000E := by decide

theorem witness_LoadFillsRegistersUpToX : (0 : Reg) ≤ 0 ∧ (15 : Reg) ≤ 15 := by decide

theorem witness_LoadRestoresWhatDumpStored :
    Memory.wf (State.reset.setI 0xFFF).mem = true ∧
      exec (.ldMemVx 0) ((withV01 0x11 0).setI 0xFFF) =
        .next ((((withV01 0x11 0).writeBytes 0xFFF [0x11]).setI 0x1000).setPc 0x202) :=
  ⟨by decide, eq_of_answers (by decide)⟩

/-- The clauses: a word stored whole, the last byte of a store at the high place, the first at the low place, with `pc` at
both ends of the address space. -/
theorem witness_NextFetchSeesTheStore :
    after (fetching 0xF155 ((withV01 0x60 0x07).setI 0x1202)) (fun t => t.fetchWord == 0x6007) = true ∧
      (State.reset.setI 0x1202).indexed 0 % 4096 = ((State.reset.setI 0x1202).pc.toNat + 2) % 4096 ∧
      (State.reset.setI 0x1202).indexed 1 % 4096 = ((State.reset.setI 0x1202).pc.toNat + 3) % 4096 ∧
      Memory.wf (State.reset.setI 0x1202).mem = true ∧
      (State.reset.setI 0x1F3).indexed 15 % 4096 = ((State.reset.setI 0x1F3).pc.toNat + 2) % 4096 ∧
      ((State.reset.setPc 0xFFFD).setI 0).indexed 0 % 4096 = (((State.reset.setPc 0xFFFD).setI 0).pc.toNat + 3) % 4096 := by
  decide

/-- `LD B, V0` of 234 over the next instruction: the hundreds are its high byte; one address lower, the tens are. -/
theorem witness_NextFetchSeesTheStore_digits :
    after (fetching 0xF033 ((withV01 234 0).setI 0x202)) (fun t => t.fetchWord == 0x0203) = true ∧
      after (fetching 0xF033 ((withV01 234 0).setI 0x201)) (fun t => t.fetchWord == 0x0304) = true := by decide

theorem witness_DrawXorsSpriteAndFlagsCollision : 0 < 16 ∧ 15 < 16 := by decide

/-- The second drawing through other registers, for the first one overwrote VF. -/
theorem witness_DrawingTwiceRestoresFramebuffer :
    1 < 16 ∧
      exec (.drw 15 15 1) ((State.reset.setReg 15 5).setI 0) =
        .next (((((State.reset.setReg 15 0).setFb (screen [(5, 0x1E0)])).setDf true).setI 0).setPc 0x202) ∧
      ((State.reset.setFb (screen [(5, 0x1E0)])).setReg 0 5).reg 0 = ((State.reset.setReg 15 5).setI 0).reg 15 :=
  ⟨by decide, eq_of_answers (by decide), by decide⟩

theorem witness_KeyWaitTakesHighestOrWaits :
    ((State.reset.setKeys 0x0088).pressed 7 = true ∧ ∀ j, 7 < j → (State.reset.setKeys 0x0088).pressed j = false) ∧
      ((State.reset.setKeys 0x8000).pressed 15 = true ∧ ∀ j, 15 < j → (State.reset.setKeys 0x8000).pressed j = false) ∧
      ∀ k, State.reset.pressed k = false := by decide

theorem witness_DelayTimerInstructions :
    (0xFF07 : Word) &&& 0xF0FF = 0xF007 ∧ (0xFF15 : Word) &&& 0xF0FF = 0xF015 := by decide

theorem witness_OnlyHostOrResetClearsDF :
    command .clearDrawFlag (State.reset.setDf true) = .next (State.reset, .done) ∧ (State.reset.setDf true).df = true ∧
      State.reset.df = false :=
  ⟨eq_of_answers (by decide), by decide, by decide⟩

theorem witness_LoaderPlacesImageOrResets :
    (List.replicate 3584 (0xAA : Byte)).length ≤ 3584 ∧ 3584 < (List.replicate 3585 (0xAA : Byte)).length := by
  rw [List.length_replicate, List.length_replicate]; decide

theorem witness_OnlyFlagWritersAndNamedDestinationsChangeVF :
    exec (.ldImm 15 7) State.reset = .next ((State.reset.setReg 15 7).setPc 0x202) ∧
      ((State.reset.setReg 15 7).setPc 0x202).reg 15 ≠ State.reset.reg 15 :=
  ⟨eq_of_answers (by decide), by decide⟩

theorem witness_EveryInstructionLeavesPcAsTabled :
    exec .ret (State.reset.setSp 16) = .next ((State.reset.setSp 15).setPc 2) ∧
      exec (.call 0xFFF) (State.reset.setSp 15) = .next (((State.reset.setEntry 15 0x200).setSp 16).setPc 0xFFF) :=
  ⟨eq_of_answers (by decide), eq_of_answers (by decide)⟩

/-- Both clauses: `CLS` of a blank screen with `DF` clear, and an instruction that is neither. -/
theorem witness_OnlyClsAndDrwTouchTheDisplay :
    exec .cls State.reset = .next ((State.reset.setDf true).setPc 0x202) ∧
      exec (.drw 0 1 0) State.reset = .next ((State.reset.setDf true).setPc 0x202) ∧
      exec (.jp 0xABC) halted = .next (halted.setPc 0xABC) :=
  ⟨eq_of_answers (by decide), eq_of_answers (by decide), eq_of_answers (by decide)⟩

theorem witness_OnlyTwoInstructionsStore :
    exec (.ldB 0) ((State.reset.setReg 0 1).setI 0x300) =
        .next ((((State.reset.setReg 0 1).setI 0x300).writeBytes 0x302 [1]).setPc 0x202) ∧
      (((State.reset.setReg 0 1).setI 0x300).writeBytes 0x302 [1]).mem ≠ ((State.reset.setReg 0 1).setI 0x300).mem :=
  ⟨eq_of_answers (by decide), by decide⟩

/-- Each conditional clause: `DT` changed, `ST` changed, each halt entered. -/
theorem witness_StepLeavesKeysTimersAndLatchAlone :
    after (fetching 0xF015 (withV01 7 0)) (fun t => t.dt != 0) = true ∧
      after (fetching 0xF018 (withV01 7 0)) (fun t => t.st != 0) = true ∧
      after (fetching 0x2ABC (State.reset.setSp 16)) (fun t => t.err == .stackOverflow) = true ∧
      after (fetching 0x00EE State.reset) (fun t => t.err == .stackUnderflow) = true := by decide

theorem witness_SoundTimerAndRedrawFlagAreNeverRead :
    step (fetching 0x00E0 State.reset) = .next ((fetching 0x00E0 State.reset).setDf true).advance :=
  eq_of_answers (by decide)

theorem witness_StatusSaysWhatTheStepDid :
    stepStatus (fetching 0x2ABC (State.reset.setSp 16)) = .stackOverflow ∧
      stepStatus (fetching 0x00EE State.reset) = .stackUnderflow ∧ stepStatus (fetching 0xF00A State.reset) = .waitKey ∧
      stepStatus State.reset = .unknownOpcode ∧ (fetching 0x2ABC (State.reset.setSp 16)).err = .running := by decide

theorem witness_OnlyResetEndsAHalt :
    halted.halted ∧ command .step halted = .next (halted, .stepStatus .stackOverflow) ∧
      command .initializeBlock halted = .next (State.reset, .done) :=
  ⟨fun h => absurd h (by decide), eq_of_answers (by decide), eq_of_answers (by decide)⟩

/-- A launch with `ERR = 0`, of a run that is successful and of one that is not. -/
theorem witness_SafeRunIsTheRunWithoutStackErrors :
    State.reset.err = .running ∧ (fetching 0x00EE State.reset).err = .running ∧
      SafeRun [.step, .updateTimers] State.reset :=
  ⟨rfl, by decide,
    fun h => h rfl, _, _, eq_of_answers (a := (State.reset.setPc 0x202, .stepStatus .unknownOpcode)) (by decide),
    fun h => h rfl, _, _, eq_of_answers (a := (State.reset.setPc 0x202, .notification .none)) (by decide), fun h => h rfl⟩

/-- Both ends of the range of `pc`. -/
theorem witness_EndOfRunIsStable :
    (fetching 0x1200 State.reset).atEnd ∧ (fetching 0x1FFF (State.reset.setPc 0xFFF)).atEnd ∧
      (fetching 0x1000 (State.reset.setPc 0)).atEnd := by
  unfold State.atEnd; decide

end Sys2Proof.Tests
end

section
/-! The redraw flag `DF` (10_state.md R32, R38): which instructions leave the display and `DF` alone, that no step clears a
set `DF`, and that only `clearDrawFlag` and the two commands that reset do. -/

namespace Sys2Proof.Machine

/-- Writing `DF` leaves every other cell alone (R38). -/
theorem unchangedBut_setDf (s : State) (b : Bool) : UnchangedBut (fun c => c = .df) s (s.setDf b) := by
  intro c hc
  cases c with
  | df => exact absurd rfl hc
  | _ => rfl

/-- Every instruction but `CLS` and `DRW` leaves the framebuffer and `DF` alone (R30, R32). Most arms are plain updates of other
cells; those with several outcomes or a group of memory accesses go through their own lemma. -/
theorem exec_fb_df_of_not_drawing {i : Instr} {s t : State} (h : exec i s = .next t) (hcls : i ≠ .cls)
    (hdrw : ∀ x y n, i ≠ .drw x y n) : t.fb = s.fb ∧ t.df = s.df := by
  cases i with
  | cls => exact absurd rfl hcls
  | drw x y n => exact absurd rfl (hdrw x y n)
  | ret => obtain ⟨-, rfl⟩ | ⟨-, rfl⟩ := execRet_cases h <;> exact ⟨rfl, rfl⟩
  | call nnn => obtain ⟨-, rfl⟩ | ⟨-, rfl⟩ := execCall_cases h <;> exact ⟨rfl, rfl⟩
  | ldVxK x => obtain ⟨-, rfl⟩ | ⟨k, -, rfl⟩ := execLdVxK_cases h <;> exact ⟨rfl, rfl⟩
  | ldB x => cases h; exact ⟨writeBytes_fb .., writeBytes_df ..⟩
  | ldMemVx x => cases h; exact ⟨writeBytes_fb .., writeBytes_df ..⟩
  | ldVxMem x => cases h; exact ⟨loadRegs_fb .., loadRegs_df ..⟩
  | _ => cases h; exact ⟨rfl, rfl⟩

/-- `CLS` sets `DF` (R170). -/
theorem exec_cls_df {s t : State} (h : exec .cls s = .next t) : t.df = true := by
  cases h; rfl

/-- `DRW` sets `DF`, whether or not a cell changes (R171). -/
theorem exec_drw_df {x y : Reg} {n : Nat} {s t : State} (h : exec (.drw x y n) s = .next t) : t.df = true := by
  cases h; rfl

/-- No instruction clears a set `DF` (R38). -/
theorem exec_keeps_df_set {i : Instr} {s t : State} (h : exec i s = .next t) (hs : s.df = true) : t.df = true := by
  by_cases hcls : i = .cls
  · subst hcls
    exact exec_cls_df h
  by_cases hdrw : ∃ x y n, i = .drw x y n
  · obtain ⟨x, y, n, rfl⟩ := hdrw
    exact exec_drw_df h
  · push Not at hdrw
    exact (exec_fb_df_of_not_drawing h hcls hdrw).2.trans hs

/-- No step clears a set `DF`: not while halted, not by an instruction, not by an unknown word (R38). -/
theorem step_keeps_df_set {s t : State} (h : step s = .next t) (hs : s.df = true) : t.df = true := by
  obtain ⟨-, rfl⟩ | ⟨-, i, -, hi⟩ | ⟨-, e, -, rfl⟩ := step_cases h
  · exact hs
  · exact exec_keeps_df_set hi hs
  · exact hs

/-- Everything the command `step()` can answer: the next state of a step, with the status of the state it started in. -/
theorem command_step_cases {s t : State} {r : Response} (h : command .step s = .next (t, r)) :
    step s = .next t ∧ r = .stepStatus (stepStatus s) := by
  simp only [command] at h
  split at h
  · rename_i hstep
    cases h
    exact ⟨hstep, rfl⟩
  · cases h
  · cases h

/-- A command other than `clearDrawFlag` and the two that reset keeps a set `DF` (R38). -/
theorem command_keeps_df_set {c : Command} {s t : State} {r : Response} (h : command c s = .next (t, r))
    (hclear : c ≠ .clearDrawFlag) (hinit : c ≠ .initializeBlock) (hload : ∀ bytes, c ≠ .loadProgram bytes)
    (hs : s.df = true) : t.df = true := by
  cases c with
  | clearDrawFlag => exact absurd rfl hclear
  | initializeBlock => exact absurd rfl hinit
  | loadProgram bytes => exact absurd rfl (hload bytes)
  | step => exact step_keeps_df_set (command_step_cases h).1 hs
  | _ => cases h; exact hs

/-- Settles O49: `clearDrawFlag` is one write of `DF`, and a command that is none of the three keeps a set `DF`. -/
theorem onlyHostOrResetClearsDF : Obligations.OnlyHostOrResetClearsDF := by
  refine ⟨fun s => ⟨s.setDf false, rfl, rfl, unchangedBut_setDf s false⟩, fun s => rfl, ?_⟩
  intro c s t r h hs ht
  by_contra hother
  push Not at hother
  obtain ⟨hclear, hinit, hload⟩ := hother
  have hset : t.df = true := command_keeps_df_set h hclear hinit hload hs
  exact Bool.false_ne_true (ht.symm.trans hset)

end Sys2Proof.Machine
end

section
/-! The jump `JP nnn` (R121): its row of the opcode map, its meaning and its frame. -/

namespace Sys2Proof.Machine

/-- Writing `pc` leaves every other cell alone (R23). -/
theorem unchangedBut_setPc (s : State) (w : Word) : UnchangedBut (fun c => c = .pc) s (s.setPc w) := by
  intro c hc
  cases c with
  | pc => exact absurd rfl hc
  | _ => rfl

/-- Family 1 is `JP nnn`, whatever its address (R94). -/
theorem decodeWord_of_familyOf_eq_one {w : Word} (h : familyOf w = 1) : decodeWord w = .ok (.jp (fieldNNN w)) := by
  simp only [decodeWord, h]

/-- The row `1nnn` of the opcode map is `JP nnn` (R96). -/
theorem decodesAs_jp : DecodesAs 0xF000 0x1000 (fun w => .jp (fieldNNN w)) := by
  intro w hw
  have hfamily : familyOf w = 1 := family_of_masked (f := 1#4) hw
  exact decodeWord_of_familyOf_eq_one hfamily

/-- `JP nnn` completes from every state and is one write of `pc` (R121). -/
theorem exec_jp (nnn : Addr) (s : State) : exec (.jp nnn) s = .next (s.setPc (zextAddr nnn)) := rfl

/-- Settles O16: the row decodes by its family, and the jump is one write of `pc` with the address in 16 bits. -/
theorem jumpSetsPcToAddress : Obligations.JumpSetsPcToAddress :=
  ⟨decodesAs_jp, fun nnn s => ⟨s.setPc (zextAddr nnn), exec_jp nnn s, zextAddr_toNat nnn, unchangedBut_setPc s _⟩⟩

end Sys2Proof.Machine
end

section
/-! The immediate skips `SE Vx, nn` and `SNE Vx, nn` (41_skip.md R130, R131): what `skipIf`, the one write every skip makes,
does to `pc` and leaves alone, then the two rows of the opcode map and their meaning. -/

namespace Sys2Proof.Machine

/-- A skip leaves every cell but `pc` alone. -/
theorem unchangedBut_skipIf (s : State) (c : Bool) : UnchangedBut (fun d => d = .pc) s (s.skipIf c) :=
  unchangedBut_setPc s _

/-- A skip adds 4 when its condition holds and 2 otherwise, wrapping at 16 bits. The condition `p` is the rule's, `c` the
model's test of it. -/
theorem skipIf_pc_toNat (s : State) {c : Bool} {p : Prop} [Decidable p] (hc : c = true ↔ p) :
    (s.skipIf c).pc.toNat = (s.pc.toNat + if p then 4 else 2) % 65536 := by
  rw [skipIf_pc, BitVec.toNat_add]
  by_cases hp : p
  · rw [if_pos (hc.mpr hp), if_pos hp]
    rfl
  · rw [if_neg (mt hc.mp hp), if_neg hp]
    rfl

/-- An instruction that is a skip on `c` meets the skip rule for every condition `p` that `c` tests. -/
theorem exec_skip_spec {i : Instr} {s : State} {c : Bool} {p : Prop} [Decidable p] (hexec : exec i s = .next (s.skipIf c))
    (hc : c = true ↔ p) :
    ∃ t, exec i s = .next t ∧ t.pc.toNat = (s.pc.toNat + if p then 4 else 2) % 65536 ∧
      UnchangedBut (fun d => d = .pc) s t :=
  ⟨s.skipIf c, hexec, skipIf_pc_toNat s hc, unchangedBut_skipIf s c⟩

/-- The row `3xnn` of the opcode map is `SE Vx, nn`: family 3 has no further selector (R94, R96). -/
theorem decodesAs_seImm : DecodesAs 0xF000 0x3000 (fun w => .seImm (fieldX w) (fieldNN w)) := by
  intro w hw
  have hfamily : familyOf w = 3 := family_of_masked (f := 3#4) hw
  simp only [decodeWord, hfamily]

/-- The row `4xnn` of the opcode map is `SNE Vx, nn`: family 4 has no further selector (R94, R96). -/
theorem decodesAs_sneImm : DecodesAs 0xF000 0x4000 (fun w => .sneImm (fieldX w) (fieldNN w)) := by
  intro w hw
  have hfamily : familyOf w = 4 := family_of_masked (f := 4#4) hw
  simp only [decodeWord, hfamily]

/-- `SE Vx, nn` completes from every state and skips on equality (R130). -/
theorem exec_seImm (x : Reg) (nn : Byte) (s : State) : exec (.seImm x nn) s = .next (s.skipIf (s.reg x == nn)) := rfl

/-- `SNE Vx, nn` completes from every state and skips on inequality (R131). -/
theorem exec_sneImm (x : Reg) (nn : Byte) (s : State) : exec (.sneImm x nn) s = .next (s.skipIf (s.reg x != nn)) := rfl

/-- Settles O23: each row decodes by its family, and each instruction is a skip on the test of its rule's condition. -/
theorem immediateSkips : Obligations.ImmediateSkips :=
  ⟨decodesAs_seImm, decodesAs_sneImm, fun x nn s =>
    ⟨exec_skip_spec (exec_seImm x nn s) beq_iff_eq, exec_skip_spec (exec_sneImm x nn s) bne_iff_ne⟩⟩

end Sys2Proof.Machine
end

section
/-! Writing one register and advancing `pc` (42_alu.md R140 to R145): what the two writes leave alone, and the meaning of every
instruction that is these two writes. -/

namespace Sys2Proof.Machine

/-- Writing `x[r]` leaves every other cell alone (R20). -/
theorem unchangedBut_setReg (s : State) (r : Reg) (b : Byte) : UnchangedBut (fun c => c = .v r) s (s.setReg r b) := by
  intro c hc
  cases c with
  | v q =>
    have hq : q ≠ r := fun h => hc (congrArg Cell.v h)
    exact congrArg BitVec.toNat (reg_setReg_ne s b hq)
  | _ => rfl

/-- Advancing adds `pc` to the cells written so far. -/
theorem UnchangedBut.advance {written : Cell → Prop} {s t : State} (h : UnchangedBut written s t) :
    UnchangedBut (fun c => written c ∨ c = .pc) s t.advance := by
  intro c hc
  obtain ⟨hwritten, hpc⟩ := not_or.mp hc
  exact (unchangedBut_setPc t (t.pc + 2) c hpc).trans (h c hwritten)

/-- Advancing adds 2 to `pc`, modulo 65536 (R24). -/
theorem advance_pc_toNat (s : State) : s.advance.pc.toNat = (s.pc.toNat + 2) % 65536 :=
  BitVec.toNat_add s.pc 2

/-- An instruction that writes one register and advances leaves the byte there, adds 2 to `pc` and writes nothing else: no
flag, unless the register is VF. -/
theorem exec_writeAndAdvance_spec {i : Instr} {s : State} {x : Reg} {b : Byte}
    (hexec : exec i s = .next (s.writeAndAdvance x b)) :
    ∃ t, exec i s = .next t ∧ t.reg x = b ∧ t.pc.toNat = (s.pc.toNat + 2) % 65536 ∧
      UnchangedBut (fun c => c = .v x ∨ c = .pc) s t :=
  ⟨(s.setReg x b).advance, hexec, reg_setReg_self s x b, advance_pc_toNat _, (unchangedBut_setReg s x b).advance⟩

end Sys2Proof.Machine
end

section
/-! The immediate load and addition `LD Vx, nn` and `ADD Vx, nn` (42_alu.md R140, R141). -/

namespace Sys2Proof.Machine

/-- The row `6xnn` of the opcode map is `LD Vx, nn`: family 6 has no further selector (R94, R96). -/
theorem decodesAs_ldImm : DecodesAs 0xF000 0x6000 (fun w => .ldImm (fieldX w) (fieldNN w)) := by
  intro w hw
  have hfamily : familyOf w = 6 := family_of_masked (f := 6#4) hw
  simp only [decodeWord, hfamily]

/-- The row `7xnn` of the opcode map is `ADD Vx, nn`: family 7 has no further selector (R94, R96). -/
theorem decodesAs_addImm : DecodesAs 0xF000 0x7000 (fun w => .addImm (fieldX w) (fieldNN w)) := by
  intro w hw
  have hfamily : familyOf w = 7 := family_of_masked (f := 7#4) hw
  simp only [decodeWord, hfamily]

/-- `LD Vx, nn` completes from every state and writes `nn` (R140). -/
theorem exec_ldImm (x : Reg) (nn : Byte) (s : State) : exec (.ldImm x nn) s = .next (s.writeAndAdvance x nn) := rfl

/-- `ADD Vx, nn` completes from every state and writes the 8-bit sum (R141). -/
theorem exec_addImm (x : Reg) (nn : Byte) (s : State) :
    exec (.addImm x nn) s = .next (s.writeAndAdvance x (s.reg x + nn)) := rfl

/-- Settles O26: each row decodes by its family, and each instruction is one write of Vx and the advance; the 8-bit sum is the
sum modulo 256. -/
theorem immediateLoadAndAdd : Obligations.ImmediateLoadAndAdd := by
  refine ⟨decodesAs_ldImm, decodesAs_addImm, fun x nn s => ⟨exec_writeAndAdvance_spec (exec_ldImm x nn s), ?_⟩⟩
  obtain ⟨t, hexec, hreg, hpc, hframe⟩ := exec_writeAndAdvance_spec (exec_addImm x nn s)
  have hsum : (t.reg x).toNat = ((s.reg x).toNat + nn.toNat) % 256 := by rw [hreg, BitVec.toNat_add]
  exact ⟨t, hexec, hsum, hpc, hframe⟩

end Sys2Proof.Machine
end

section
/-! The register load and the bitwise instructions `LD`, `OR`, `AND`, `XOR Vx, Vy` (42_alu.md R142 to R145): their rows of
family 8, which the low nibble selects, and their meaning. -/

namespace Sys2Proof.Machine

/-- Family 8 has a decoder of its own (R94). -/
theorem decodeWord_of_familyOf_eq_eight {w : Word} (h : familyOf w = 8) : decodeWord w = decodeFamily8 w := by
  simp only [decodeWord, h]

/-- A row `8xyn` of the opcode map decodes as family 8 decodes the words whose low nibble is `n` (R95). -/
theorem decodesAs_of_decodeFamily8 {n : BitVec 4} {f : Word → Instr}
    (h : ∀ w, fieldN w = n.toNat → decodeFamily8 w = .ok (f w)) :
    DecodesAs 0xF00F (8#4 ++ (0#4 ++ (0#4 ++ n))) f := by
  intro w hw
  obtain ⟨hfamily, hselector⟩ := selector_of_masked (f := 8#4) hw
  exact (decodeWord_of_familyOf_eq_eight hfamily).trans (h w hselector)

/-- The row `8xy0` of the opcode map is `LD Vx, Vy` (R96). -/
theorem decodesAs_ldReg : DecodesAs 0xF00F 0x8000 (fun w => .ldReg (fieldX w) (fieldY w)) :=
  decodesAs_of_decodeFamily8 (n := 0) fun w (h : fieldN w = 0) => by simp only [decodeFamily8, h]

/-- The row `8xy1` of the opcode map is `OR Vx, Vy` (R96). -/
theorem decodesAs_orReg : DecodesAs 0xF00F 0x8001 (fun w => .orReg (fieldX w) (fieldY w)) :=
  decodesAs_of_decodeFamily8 (n := 1) fun w (h : fieldN w = 1) => by simp only [decodeFamily8, h]

/-- The row `8xy2` of the opcode map is `AND Vx, Vy` (R96). -/
theorem decodesAs_andReg : DecodesAs 0xF00F 0x8002 (fun w => .andReg (fieldX w) (fieldY w)) :=
  decodesAs_of_decodeFamily8 (n := 2) fun w (h : fieldN w = 2) => by simp only [decodeFamily8, h]

/-- The row `8xy3` of the opcode map is `XOR Vx, Vy` (R96). -/
theorem decodesAs_xorReg : DecodesAs 0xF00F 0x8003 (fun w => .xorReg (fieldX w) (fieldY w)) :=
  decodesAs_of_decodeFamily8 (n := 3) fun w (h : fieldN w = 3) => by simp only [decodeFamily8, h]

/-- `LD Vx, Vy` completes from every state and writes Vy (R142). -/
theorem exec_ldReg (x y : Reg) (s : State) : exec (.ldReg x y) s = .next (s.writeAndAdvance x (s.reg y)) := rfl

/-- `OR Vx, Vy` completes from every state and writes the OR of the values at entry (R143). -/
theorem exec_orReg (x y : Reg) (s : State) :
    exec (.orReg x y) s = .next (s.writeAndAdvance x (s.reg x ||| s.reg y)) := rfl

/-- `AND Vx, Vy` completes from every state and writes the AND of the values at entry (R144). -/
theorem exec_andReg (x y : Reg) (s : State) :
    exec (.andReg x y) s = .next (s.writeAndAdvance x (s.reg x &&& s.reg y)) := rfl

/-- `XOR Vx, Vy` completes from every state and writes the XOR of the values at entry (R145). -/
theorem exec_xorReg (x y : Reg) (s : State) :
    exec (.xorReg x y) s = .next (s.writeAndAdvance x (s.reg x ^^^ s.reg y)) := rfl

/-- An instruction that writes `op Vx Vy` and advances works bit by bit when `op` does. -/
theorem exec_bitwise_spec (op : Byte → Byte → Byte) (bit : Bool → Bool → Bool)
    (hop : ∀ a b k, (op a b).getLsbD k = bit (a.getLsbD k) (b.getLsbD k)) {i : Instr} {s : State} {x y : Reg}
    (hexec : exec i s = .next (s.writeAndAdvance x (op (s.reg x) (s.reg y)))) :
    ∃ t, exec i s = .next t ∧
      (∀ k < 8, (t.reg x).getLsbD k = bit ((s.reg x).getLsbD k) ((s.reg y).getLsbD k)) ∧
      t.pc.toNat = (s.pc.toNat + 2) % 65536 ∧ UnchangedBut (fun c => c = .v x ∨ c = .pc) s t := by
  obtain ⟨t, hnext, hreg, hpc, hframe⟩ := exec_writeAndAdvance_spec hexec
  exact ⟨t, hnext, fun k _ => by rw [hreg, hop], hpc, hframe⟩

/-- Settles O27: each row decodes by its low nibble, and each instruction is one write of Vx and the advance; the three logic
operations on bytes work bit by bit. -/
theorem assignAndLogic : Obligations.AssignAndLogic :=
  ⟨decodesAs_ldReg, decodesAs_orReg, decodesAs_andReg, decodesAs_xorReg, fun x y s =>
    ⟨exec_writeAndAdvance_spec (exec_ldReg x y s),
     exec_bitwise_spec (· ||| ·) (· || ·) (fun _ _ _ => BitVec.getLsbD_or) (exec_orReg x y s),
     exec_bitwise_spec (· &&& ·) (· && ·) (fun _ _ _ => BitVec.getLsbD_and) (exec_andReg x y s),
     exec_bitwise_spec (· ^^^ ·) (· != ·) (fun _ _ _ => BitVec.getLsbD_xor) (exec_xorReg x y s)⟩⟩

end Sys2Proof.Machine
end

section
/-! The index register loads `LD I, nnn` and `LD F, Vx` (43_index_memory.md R160, R162): what writing `I` and advancing `pc`
leaves alone, then the two rows of the opcode map and their meaning. -/

namespace Sys2Proof.Machine

/-- Writing `I` leaves every other cell alone (R22). -/
theorem unchangedBut_setI (s : State) (w : Word) : UnchangedBut (fun c => c = .i) s (s.setI w) := by
  intro c hc
  cases c with
  | i => exact absurd rfl hc
  | _ => rfl

/-- An instruction that writes `I` and advances leaves the word there, adds 2 to `pc` and writes nothing else. -/
theorem exec_setI_advance_spec {i : Instr} {s : State} {w : Word} {n : Nat} (hexec : exec i s = .next (s.setI w).advance)
    (hw : w.toNat = n) :
    ∃ t, exec i s = .next t ∧ t.i.toNat = n ∧ t.pc.toNat = (s.pc.toNat + 2) % 65536 ∧
      UnchangedBut (fun c => c = .i ∨ c = .pc) s t :=
  ⟨(s.setI w).advance, hexec, hw, advance_pc_toNat _, (unchangedBut_setI s w).advance⟩

/-- The row `Annn` of the opcode map is `LD I, nnn`: family A has no further selector (R94, R96). -/
theorem decodesAs_ldI : DecodesAs 0xF000 0xA000 (fun w => .ldI (fieldNNN w)) := by
  intro w hw
  have hfamily : familyOf w = 10 := family_of_masked (f := 10#4) hw
  simp only [decodeWord, hfamily]

/-- Family F has a decoder of its own (R94). -/
theorem decodeWord_of_familyOf_eq_fifteen {w : Word} (h : familyOf w = 15) : decodeWord w = decodeFamilyF w := by
  simp only [decodeWord, h]

/-- A row of family F of the opcode map decodes as family F decodes the words whose low byte is the row's (R95). -/
theorem decodesAs_of_decodeFamilyF {b : Byte} {f : Word → Instr}
    (h : ∀ w, fieldNN w = b → decodeFamilyF w = .ok (f w)) : DecodesAs 0xF0FF (15#4 ++ (0#4 ++ b)) f := by
  intro w hw
  obtain ⟨hfamily, hselector⟩ := lowByte_of_masked (f := 15#4) hw
  exact (decodeWord_of_familyOf_eq_fifteen hfamily).trans (h w hselector)

/-- The row `Fx29` of the opcode map is `LD F, Vx` (R96). -/
theorem decodesAs_ldF : DecodesAs 0xF0FF 0xF029 (fun w => .ldF (fieldX w)) :=
  decodesAs_of_decodeFamilyF (b := 0x29) fun w h => by simp [decodeFamilyF, h]

/-- `LD I, nnn` completes from every state and writes the address in 16 bits (R160). -/
theorem exec_ldI (nnn : Addr) (s : State) : exec (.ldI nnn) s = .next (s.setI (zextAddr nnn)).advance := rfl

/-- `LD F, Vx` completes from every state and writes the address of the glyph of the whole byte Vx (R162). -/
theorem exec_ldF (x : Reg) (s : State) : exec (.ldF x) s = .next (s.setI (glyphAddr (s.reg x))).advance := rfl

/-- Settles O33: the rows decode by their family and low byte, and each instruction is one write of `I` and the advance; five
times a byte fits in 16 bits, so the glyph's address is the unreduced product. -/
theorem indexLoads : Obligations.IndexLoads :=
  ⟨decodesAs_ldI, decodesAs_ldF, fun nnn x s =>
    ⟨exec_setI_advance_spec (exec_ldI nnn s) (zextAddr_toNat nnn),
     exec_setI_advance_spec (exec_ldF x s) (glyphAddr_toNat (s.reg x))⟩⟩

end Sys2Proof.Machine
end


section
/-! Frames (00_scope.md R10): how they compose, and what each one-cell update leaves alone. -/

namespace Sys2Proof.Machine

theorem UnchangedBut.mono {p q : Cell → Prop} {s t : State} (h : UnchangedBut p s t) (hpq : ∀ c, p c → q c) :
    UnchangedBut q s t :=
  fun c hc => h c (mt (hpq c) hc)

/-- Two frames one after the other: what either step writes may have changed. -/
theorem UnchangedBut.trans {p q : Cell → Prop} {s t u : State} (h : UnchangedBut p s t) (h' : UnchangedBut q t u) :
    UnchangedBut (fun c => p c ∨ q c) s u := by
  intro c hc
  obtain ⟨hp, hq⟩ := not_or.mp hc
  exact (h' c hq).trans (h c hp)

theorem unchangedBut_setSp (s : State) (n : BitVec 5) : UnchangedBut (fun c => c = .sp) s (s.setSp n) := by
  intro c hc
  cases c with
  | sp => exact absurd rfl hc
  | _ => rfl

theorem unchangedBut_setEntry (s : State) (j : Fin 16) (w : Word) :
    UnchangedBut (fun c => c = .stk j) s (s.setEntry j w) := by
  intro c hc
  cases c with
  | stk k =>
    have hk : k ≠ j := fun h => hc (congrArg Cell.stk h)
    simp [State.cell, entry_setEntry, hk]
  | _ => rfl

theorem unchangedBut_setDt (s : State) (b : Byte) : UnchangedBut (fun c => c = .dt) s (s.setDt b) := by
  intro c hc
  cases c with
  | dt => exact absurd rfl hc
  | _ => rfl

theorem unchangedBut_setSt (s : State) (b : Byte) : UnchangedBut (fun c => c = .st) s (s.setSt b) := by
  intro c hc
  cases c with
  | st => exact absurd rfl hc
  | _ => rfl

theorem unchangedBut_setFb (s : State) (f : Framebuffer) : UnchangedBut (fun c => ∃ k, c = .fb k) s (s.setFb f) := by
  intro c hc
  cases c with
  | fb k => exact absurd ⟨k, rfl⟩ hc
  | _ => rfl

theorem unchangedBut_raise (s : State) (cause : HaltCause) : UnchangedBut (fun c => c = .err) s (s.raise cause) := by
  intro c hc
  cases c with
  | err => exact absurd rfl hc
  | _ => rfl

/-- Counting a draw changes no cell of the block (R39, log entry 2). -/
theorem unchangedBut_countDraw (s : State) : UnchangedBut (fun _ => False) s s.countDraw := by
  intro c _
  cases c <;> rfl

/-- A group load changes the registers listed and nothing else (R165). -/
theorem unchangedBut_loadRegs (s : State) (rs : List Reg) :
    UnchangedBut (fun c => ∃ r ∈ rs, c = .v r) s (s.loadRegs rs) := by
  intro c hc
  cases c with
  | v q =>
    have hq : q ∉ rs := fun h => hc ⟨q, h, rfl⟩
    simp [State.cell, loadRegs_reg, hq]
  | _ => simp [State.cell]

/-- A group store changes the bytes it reaches and nothing else (R68, R69). -/
theorem unchangedBut_writeBytes {s : State} (h : Memory.wf s.mem = true) (a : Nat) (bs : List Byte) :
    UnchangedBut (fun c => ∃ k < bs.length, c = memCell (a + k)) s (s.writeBytes a bs) := by
  intro c hc
  cases c with
  | mem b =>
    have houtside : ∀ k < bs.length, b.val % 4096 ≠ (a + k) % 4096 := by
      intro k hk hb
      rw [Nat.mod_eq_of_lt b.isLt] at hb
      exact hc ⟨k, hk, congrArg Cell.mem (Fin.ext hb)⟩
    exact congrArg BitVec.toNat (memRead_writeBytes_outside h a b.val bs houtside)
  | _ => simp [State.cell]

end Sys2Proof.Machine
end

section
/-! Control transfer with the stack (40_flow.md R120, R122, R123; 60_exceptions.md R201, R202): one equation per case of `CALL`
and `RET`, and the obligations that follow from them. -/

namespace Sys2Proof.Machine

/-- `JP V0, nnn` completes from every state and writes the 16-bit sum (R123). -/
theorem exec_jpV0 (nnn : Addr) (s : State) :
    exec (.jpV0 nnn) s = .next (s.setPc (zextAddr nnn + zextByte (s.reg 0))) := rfl

/-- The sum of an address and a byte fits in 16 bits. -/
theorem zextAddr_add_zextByte_toNat (nnn : Addr) (b : Byte) :
    (zextAddr nnn + zextByte b).toNat = nnn.toNat + b.toNat := by
  have hnnn := nnn.isLt
  have hb := b.isLt
  rw [BitVec.toNat_add, zextAddr_toNat, zextByte_toNat]
  omega

/-- Settles O17: one write of `pc`, whose sum fits in 16 bits. -/
theorem jumpV0AddsV0WithoutReduction : Obligations.JumpV0AddsV0WithoutReduction :=
  fun nnn s => ⟨_, exec_jpV0 nnn s, zextAddr_add_zextByte_toNat nnn (s.reg 0), unchangedBut_setPc s _⟩

/-- `CALL` on a full stack raises (R201). -/
theorem exec_call_of_full {s : State} (nnn : Addr) (h : s.sp = 16) :
    exec (.call nnn) s = .next (s.raise .stackOverflow) := by
  simp [exec, execCall, h]

/-- `CALL` with room on the stack pushes its own address and jumps (R122). -/
theorem exec_call_of_lt {s : State} (nnn : Addr) (h : s.sp.toNat < 16) :
    exec (.call nnn) s =
      .next (((s.setEntry ⟨s.sp.toNat, h⟩ s.pc).setSp (s.sp + 1)).setPc (zextAddr nnn)) := by
  have hne : s.sp ≠ 16 := by rintro he; simp [he] at h
  simp only [exec, execCall, if_neg hne, push_of_lt h]

/-- `RET` on an empty stack raises (R202). -/
theorem exec_ret_of_empty {s : State} (h : s.sp = 0) : exec .ret s = .next (s.raise .stackUnderflow) := by
  simp [exec, execRet, h]

/-- `RET` with an entry on the stack goes to it plus 2 (R120). -/
theorem exec_ret_of_pos {s : State} (h : 0 < s.sp.toNat ∧ s.sp.toNat ≤ 16) :
    exec .ret s = .next ((s.setSp (s.sp - 1)).setPc (s.entry ⟨s.sp.toNat - 1, by omega⟩ + 2)) := by
  have hne : s.sp ≠ 0 := by rintro he; simp [he] at h
  simp only [exec, execRet, if_neg hne, pop_of_le h]

/-- Settles O18: the three writes of the push and the jump, read back one by one. -/
theorem callPushesItsOwnAddress : Obligations.CallPushesItsOwnAddress := by
  intro nnn s h
  refine ⟨_, exec_call_of_lt nnn h, entry_setEntry_self s ⟨s.sp.toNat, h⟩ s.pc, sp_add_one h, zextAddr_toNat nnn, ?_⟩
  have hframe := ((unchangedBut_setEntry s ⟨s.sp.toNat, h⟩ s.pc).trans (unchangedBut_setSp _ (s.sp + 1))).trans
    (unchangedBut_setPc _ (zextAddr nnn))
  exact hframe.mono fun c hc => or_assoc.mp hc

/-- Settles O19: `CALL` with `SP` = 16 is the one write of `ERR`. -/
theorem callOnFullStackOnlySetsErr : Obligations.CallOnFullStackOnlySetsErr :=
  fun nnn s h => ⟨_, exec_call_of_full nnn h, rfl, rfl, unchangedBut_raise s _, if_pos h⟩

/-- Settles O20: `RET` writes `SP` and `pc` only, so the popped entry stays. -/
theorem returnGoesToEntryPlusTwo : Obligations.ReturnGoesToEntryPlusTwo :=
  fun s h => ⟨_, exec_ret_of_pos h, sp_sub_one h.1, BitVec.toNat_add _ 2,
    (unchangedBut_setSp s (s.sp - 1)).trans (unchangedBut_setPc _ _)⟩

/-- Settles O21: `RET` with `SP` = 0 is the one write of `ERR`. -/
theorem returnOnEmptyStackOnlySetsErr : Obligations.ReturnOnEmptyStackOnlySetsErr :=
  fun s h => ⟨_, exec_ret_of_empty h, rfl, rfl, unchangedBut_raise s _, if_pos h⟩

/-- The entry a `CALL` pushed is the one a `RET` pops: its index is the `SP` of the call. -/
theorem pushed_entry_is_popped {s u : State} {w : Word} (hs : s.sp.toNat < 16)
    (hstk : u.stk = (s.setEntry ⟨s.sp.toNat, hs⟩ w).stk) (j : Fin 16) (hj : j.val = s.sp.toNat) : u.entry j = w := by
  obtain rfl : j = ⟨s.sp.toNat, hs⟩ := Fin.ext hj
  have hread : u.entry ⟨s.sp.toNat, hs⟩ = (s.setEntry ⟨s.sp.toNat, hs⟩ w).entry ⟨s.sp.toNat, hs⟩ := by
    simp only [State.entry, hstk]
  rw [hread, entry_setEntry_self]

/-- Settles O22: the `RET` finds `SP` one above the call's, so it pops the entry the call wrote. -/
theorem returnComesBackAfterCall : Obligations.ReturnComesBackAfterCall := by
  intro nnn s t u hs ht hstk hsp
  rw [exec_call_of_lt nnn hs] at ht
  cases ht
  have husp : u.sp = s.sp + 1 := hsp
  have hcount : u.sp.toNat = s.sp.toNat + 1 := by rw [husp, sp_add_one hs]
  have hpop : 0 < u.sp.toNat ∧ u.sp.toNat ≤ 16 := by omega
  refine ⟨_, exec_ret_of_pos hpop, ?_, ?_, hstk⟩
  · have hentry := pushed_entry_is_popped hs hstk ⟨u.sp.toNat - 1, by omega⟩ (by simp only; omega)
    rw [setPc_pc, hentry]
  · show u.sp - 1 = s.sp
    rw [husp, BitVec.add_sub_cancel]

end Sys2Proof.Machine
end

section
/-! The invariant (`State.Inv`: canonical memory, `SP` at most 16): it holds at reset, every instruction, step and command keeps
it, and under it every step answers a next state. -/

namespace Sys2Proof.Machine

/-- Settles O3: the reset memory lists nothing, and `SP` is 0. -/
theorem resetSatisfiesInvariant : Obligations.ResetSatisfiesInvariant :=
  ⟨rfl, by decide⟩

/-- A group of stores keeps the invariant: memory stays canonical, `SP` is not written. -/
theorem State.Inv.writeBytes {s : State} (h : s.Inv) (a : Nat) (bs : List Byte) : (s.writeBytes a bs).Inv := by
  obtain ⟨hmem, hsp⟩ := h
  exact ⟨writeBytes_wf a bs hmem, by rwa [writeBytes_sp]⟩

/-- A group load keeps the invariant: it writes registers only. -/
theorem State.Inv.loadRegs {s : State} (h : s.Inv) (rs : List Reg) : (s.loadRegs rs).Inv := by
  obtain ⟨hmem, hsp⟩ := h
  exact ⟨by rwa [loadRegs_mem], by rwa [loadRegs_sp]⟩

/-- `RET` keeps the invariant: `SP` only falls. -/
theorem execRet_keeps_inv {s t : State} (hs : s.Inv) (h : execRet s = .next t) : t.Inv := by
  obtain ⟨-, rfl⟩ | ⟨hpos, rfl⟩ := execRet_cases h
  · exact hs
  · have hsp : (s.sp - 1).toNat = s.sp.toNat - 1 := sp_sub_one hpos.1
    exact ⟨hs.1, show (s.sp - 1).toNat ≤ 16 by omega⟩

/-- `CALL` keeps the invariant: it raises `SP` only below 16. -/
theorem execCall_keeps_inv {nnn : Addr} {s t : State} (hs : s.Inv) (h : execCall nnn s = .next t) : t.Inv := by
  obtain ⟨-, rfl⟩ | ⟨hlt, rfl⟩ := execCall_cases h
  · exact hs
  · have hsp : (s.sp + 1).toNat = s.sp.toNat + 1 := sp_add_one hlt
    exact ⟨hs.1, show (s.sp + 1).toNat ≤ 16 by omega⟩

/-- Every instruction keeps the invariant. Only the stack and the group memory instructions touch what it speaks of. -/
theorem exec_keeps_inv {i : Instr} {s t : State} (hs : s.Inv) (h : exec i s = .next t) : t.Inv := by
  cases i with
  | ret => exact execRet_keeps_inv hs h
  | call nnn => exact execCall_keeps_inv hs h
  | ldVxK x => obtain ⟨-, rfl⟩ | ⟨k, -, rfl⟩ := execLdVxK_cases h <;> exact hs
  | ldB x => cases h; exact hs.writeBytes _ _
  | ldMemVx x => cases h; exact hs.writeBytes _ _
  | ldVxMem x => cases h; exact hs.loadRegs _
  | _ => cases h; exact hs

/-- Settles O4: a halted step and an unknown word write neither memory nor `SP`, and every instruction keeps the invariant. -/
theorem everyStepKeepsInvariant : Obligations.EveryStepKeepsInvariant := by
  intro s t hs h
  obtain ⟨-, rfl⟩ | ⟨-, i, -, hi⟩ | ⟨-, e, -, rfl⟩ := step_cases h
  · exact hs
  · exact exec_keeps_inv hs hi
  · exact hs

/-- A reset reaches the invariant from any state (R240). -/
theorem initialized_inv (s : State) : s.initialized.Inv := resetSatisfiesInvariant

/-- The loader reaches the invariant from any state, whether or not the image fits (R242). -/
theorem loadProgram_inv (s : State) (bytes : List Byte) : (s.loadProgram bytes).1.Inv := by
  unfold State.loadProgram
  split
  · exact (initialized_inv s).writeBytes _ _
  · exact initialized_inv s

/-- Settles O5: the two commands that reset reach the invariant, `step` keeps it by O4, and no other command writes memory or
`SP`. -/
theorem everyCommandKeepsInvariant : Obligations.EveryCommandKeepsInvariant := by
  intro c s t r hs h
  cases c with
  | initializeBlock => cases h; exact initialized_inv s
  | loadProgram bytes => cases h; exact loadProgram_inv s bytes
  | step => exact everyStepKeepsInvariant s t hs (command_step_cases h).1
  | _ => cases h; exact hs

/-- `RET` completes when `SP` is in range: it raises or pops. -/
theorem exec_ret_completes {s : State} (hs : s.sp.toNat ≤ 16) : ∃ t, exec .ret s = .next t := by
  by_cases hzero : s.sp = 0
  · exact ⟨_, exec_ret_of_empty hzero⟩
  · have hpos : 0 < s.sp.toNat := Nat.pos_of_ne_zero fun h => hzero (BitVec.eq_of_toNat_eq h)
    exact ⟨_, exec_ret_of_pos ⟨hpos, hs⟩⟩

/-- `CALL` completes when `SP` is in range: it raises or pushes. -/
theorem exec_call_completes {s : State} (nnn : Addr) (hs : s.sp.toNat ≤ 16) : ∃ t, exec (.call nnn) s = .next t := by
  by_cases hfull : s.sp = 16
  · exact ⟨_, exec_call_of_full nnn hfull⟩
  · have hlt : s.sp.toNat < 16 := Nat.lt_of_le_of_ne hs fun h => hfull (BitVec.eq_of_toNat_eq h)
    exact ⟨_, exec_call_of_lt nnn hlt⟩

/-- `LD Vx, K` completes from every state: it takes a key or waits (R183). -/
theorem exec_ldVxK_completes (x : Reg) (s : State) : ∃ t, exec (.ldVxK x) s = .next t := by
  simp only [exec, execLdVxK]
  split <;> exact ⟨_, rfl⟩

/-- Every instruction completes from a state with `SP` in range; all but `RET` and `CALL` do so from any state. -/
theorem exec_completes {s : State} (i : Instr) (hs : s.sp.toNat ≤ 16) : ∃ t, exec i s = .next t := by
  cases i with
  | ret => exact exec_ret_completes hs
  | call nnn => exact exec_call_completes nnn hs
  | ldVxK x => exact exec_ldVxK_completes x s
  | _ => exact ⟨_, rfl⟩

/-- A halted step answers the state it started from (R204). -/
theorem step_of_halted {s : State} (h : s.halted) : step s = .next s := by
  unfold State.halted at h
  unfold step
  split
  · rfl
  · rfl
  · exact absurd ‹_› h

/-- A running step is the instruction at `pc` (R90). -/
theorem step_of_decoded {s : State} {i : Instr} (hs : s.err = .running) (hd : decodeWord s.fetchWord = .ok i) :
    step s = exec i s := by
  simp only [step, hs, hd]

/-- A running step with an unknown word at `pc` is the no-op of R100. -/
theorem step_of_unknown {s : State} {e : DecodeError} (hs : s.err = .running) (hd : decodeWord s.fetchWord = .error e) :
    step s = .next s.advance := by
  simp only [step, hs, hd]
  rfl

/-- Settles O6: a halted machine steps to itself, a running one runs an instruction that completes or an unknown word. -/
theorem stepAlwaysAnswersNextState : Obligations.StepAlwaysAnswersNextState := by
  intro s hs
  by_cases hrun : s.err = .running
  · cases hd : decodeWord s.fetchWord with
    | ok i => rw [step_of_decoded hrun hd]; exact exec_completes i hs.2
    | error e => exact ⟨_, step_of_unknown hrun hd⟩
  · exact ⟨s, step_of_halted hrun⟩

end Sys2Proof.Machine
end

section
/-! Encoding and decoding (30_encoding.md R92 to R96): the decoder undoes the encoder, and everything the decoder can answer is
said once, as `AnswerFits`. -/

namespace Sys2Proof.Machine

/-- The decoder undoes the encoder, format by format: the fields of the word are the operands (R92, R93). -/
theorem decodeWord_encodeWord {i : Instr} (h : i.wf = true) : decodeWord (encodeWord i) = .ok i := by
  cases i with
  | cls | ret => rfl
  | jp nnn | call nnn | ldI nnn | jpV0 nnn =>
    simp [encodeWord, decodeWord]
  | seImm x nn | sneImm x nn | ldImm x nn | addImm x nn | rnd x nn =>
    simp [encodeWord, decodeWord]
  | seReg x y | sneReg x y =>
    simp [encodeWord, decodeWord]
  | ldReg x y | orReg x y | andReg x y | xorReg x y | addReg x y | subReg x y | shr x y | subnReg x y | shl x y =>
    simp [encodeWord, decodeWord, decodeFamily8]
  | drw x y n =>
    have hn : n < 16 := of_decide_eq_true h
    simp [encodeWord, decodeWord, Nat.mod_eq_of_lt hn]
  | skp x | sknp x =>
    simp [encodeWord, decodeWord, decodeFamilyE]
  | ldVxDt x | ldVxK x | ldDtVx x | ldStVx x | addI x | ldF x | ldB x | ldMemVx x | ldVxMem x =>
    simp [encodeWord, decodeWord, decodeFamilyF]

/-- Settles O11: the decoder on the word, and on the two bytes of the word before any others. -/
theorem decodeOfEncodeIsIdentity : Obligations.DecodeOfEncodeIsIdentity := by
  intro i h
  refine ⟨decodeWord_encodeWord h, fun rest => ?_⟩
  rw [encode, decode_bytesOfWord, decodeWord_encodeWord h]
  rfl

/-- What an answer of the decoder to the word `w` may be: a well-formed instruction that encodes to `w`, or the error that names
`w`. -/
def AnswerFits (w : Word) : Except DecodeError Instr → Prop
  | .ok i => i.wf = true ∧ encodeWord i = w
  | .error e => e = .unknownWord w

theorem decodeFamily0_answerFits (w : Word) : AnswerFits w (decodeFamily0 w) := by
  unfold decodeFamily0
  split
  · exact ⟨rfl, Eq.symm ‹_›⟩
  · split
    · exact ⟨rfl, Eq.symm ‹_›⟩
    · rfl

/-- Families 5 and 9 compare the low nibble with 0 (R95, D8). -/
theorem lowNibble_answerFits {w : Word} {i : Instr} (h : fieldN w = 0 → i.wf = true ∧ encodeWord i = w) :
    AnswerFits w (if fieldN w = 0 then .ok i else .error (.unknownWord w)) := by
  split
  · exact h ‹_›
  · rfl

theorem decodeFamily8_answerFits {w : Word} (hf : familyOf w = 8) : AnswerFits w (decodeFamily8 w) := by
  simp only [decodeFamily8]
  split
  case h_10 => rfl
  all_goals exact ⟨rfl, formatXY_fields hf ‹_›⟩

theorem decodeFamilyE_answerFits {w : Word} (hf : familyOf w = 14) : AnswerFits w (decodeFamilyE w) := by
  simp only [decodeFamilyE]
  split_ifs
  case neg => rfl
  all_goals exact ⟨rfl, formatXS_fields hf ‹_›⟩

theorem decodeFamilyF_answerFits {w : Word} (hf : familyOf w = 15) : AnswerFits w (decodeFamilyF w) := by
  simp only [decodeFamilyF]
  split_ifs
  case neg => rfl
  all_goals exact ⟨rfl, formatXS_fields hf ‹_›⟩

/-- Everything the decoder can answer, family by family (R94). -/
theorem decodeWord_answerFits (w : Word) : AnswerFits w (decodeWord w) := by
  have hlt := familyOf_lt w
  unfold decodeWord
  split
  case h_1 => exact decodeFamily0_answerFits w
  case h_2 hf => exact ⟨rfl, formatA_fields hf⟩
  case h_3 hf => exact ⟨rfl, formatA_fields hf⟩
  case h_4 hf => exact ⟨rfl, formatXB_fields hf⟩
  case h_5 hf => exact ⟨rfl, formatXB_fields hf⟩
  case h_6 hf => exact lowNibble_answerFits fun hn => ⟨rfl, formatXY_fields hf hn⟩
  case h_7 hf => exact ⟨rfl, formatXB_fields hf⟩
  case h_8 hf => exact ⟨rfl, formatXB_fields hf⟩
  case h_9 hf => exact decodeFamily8_answerFits hf
  case h_10 hf => exact lowNibble_answerFits fun hn => ⟨rfl, formatXY_fields hf hn⟩
  case h_11 hf => exact ⟨rfl, formatA_fields hf⟩
  case h_12 hf => exact ⟨rfl, formatA_fields hf⟩
  case h_13 hf => exact ⟨rfl, formatXB_fields hf⟩
  case h_14 hf =>
    have hn : fieldN w = (BitVec.ofNat 4 (fieldN w)).toNat := (Nat.mod_eq_of_lt (fieldN_lt w)).symm
    exact ⟨decide_eq_true (fieldN_lt w), formatXY_fields hf hn⟩
  case h_15 hf => exact decodeFamilyE_answerFits hf
  case h_16 => exact decodeFamilyF_answerFits (by simp only [imp_false] at *; omega)

/-- Settles O12: the `ok` case of `decodeWord_answerFits`. -/
theorem encodeOfDecodeIsIdentity : Obligations.EncodeOfDecodeIsIdentity := by
  intro w i h
  have hfits := decodeWord_answerFits w
  rw [h] at hfits
  exact hfits

/-- A word that does not decode is named in the error. -/
theorem eq_unknownWord_of_decodeWord_error {w : Word} {e : DecodeError} (h : decodeWord w = .error e) :
    e = .unknownWord w := by
  have hfits := decodeWord_answerFits w
  rw [h] at hfits
  exact hfits

/-- Settles O15: nine evaluations of the decoder. -/
theorem sampleWordsDecode : Obligations.SampleWordsDecode := by
  unfold Obligations.SampleWordsDecode
  decide

end Sys2Proof.Machine
end

section
/-! The unknown words (30_encoding.md R99 to R101), family by family. -/

namespace Sys2Proof.Machine

theorem decodeFamily0_unknown_iff (w : Word) :
    decodeFamily0 w = .error (.unknownWord w) ↔ w ≠ 0x00E0 ∧ w ≠ 0x00EE := by
  unfold decodeFamily0
  split_ifs <;> simp_all

/-- The low nibbles 8 to D and F of family 8 are unused (R101). -/
theorem decodeFamily8_unknown_iff (w : Word) :
    decodeFamily8 w = .error (.unknownWord w) ↔ fieldN w ∈ [8, 9, 0xA, 0xB, 0xC, 0xD, 0xF] := by
  have hlt := fieldN_lt w
  unfold decodeFamily8
  interval_cases fieldN w <;> simp

theorem decodeFamilyE_unknown_iff (w : Word) :
    decodeFamilyE w = .error (.unknownWord w) ↔ (fieldNN w).toNat ∉ [0x9E, 0xA1] := by
  simp only [decodeFamilyE, BitVec.toNat_eq]
  split_ifs <;> simp_all

theorem decodeFamilyF_unknown_iff (w : Word) :
    decodeFamilyF w = .error (.unknownWord w) ↔
      (fieldNN w).toNat ∉ [0x07, 0x0A, 0x15, 0x18, 0x1E, 0x29, 0x33, 0x55, 0x65] := by
  simp only [decodeFamilyF, BitVec.toNat_eq]
  split_ifs <;> simp_all

/-- Settles O14: each family's own decoder, and families 1 to 4, 6, 7 and A to D, which decode every word. -/
theorem unknownWordsAreExactlyThese : Obligations.UnknownWordsAreExactlyThese := by
  intro w
  have hlt := familyOf_lt w
  have h0 := decodeFamily0_unknown_iff w
  have h8 := decodeFamily8_unknown_iff w
  have hE := decodeFamilyE_unknown_iff w
  have hF := decodeFamilyF_unknown_iff w
  unfold decodeWord
  interval_cases familyOf w <;> simp [h0, h8, hE, hF]

end Sys2Proof.Machine
end

section
/-! The opcode map (30_encoding.md R96): every row decodes to one instruction, rows are disjoint, and the decoder's instruction
belongs to the row its word matches. -/

namespace Sys2Proof.Machine

/-- A row that fixes the family alone decodes as its family does (R94). -/
theorem decodesAs_of_family {n : BitVec 4} {f : Word → Instr}
    (h : ∀ w, familyOf w = n.toNat → decodeWord w = .ok (f w)) : DecodesAs 0xF000 (n ++ 0#12) f :=
  fun w hw => h w (family_of_masked hw)

/-- A row that fixes the family and the low nibble (R95). -/
theorem decodesAs_of_selector {n k : BitVec 4} {f : Word → Instr}
    (h : ∀ w, familyOf w = n.toNat → fieldN w = k.toNat → decodeWord w = .ok (f w)) :
    DecodesAs 0xF00F (n ++ (0#4 ++ (0#4 ++ k))) f := by
  intro w hw
  obtain ⟨hfamily, hselector⟩ := selector_of_masked hw
  exact h w hfamily hselector

/-- A row that fixes every bit decodes as its one word does (R95). -/
theorem decodesAs_of_word {opcode : Word} {i : Instr} (h : decodeWord opcode = .ok i) :
    DecodesAs 0xFFFF opcode (fun _ => i) := by
  intro w hw
  have hall : w &&& 0xFFFF = w := BitVec.and_allOnes
  obtain rfl : w = opcode := hall.symm.trans hw
  exact h

/-- A row of family E decodes as family E decodes the words whose low byte is the row's (R95). -/
theorem decodesAs_of_decodeFamilyE {b : Byte} {f : Word → Instr}
    (h : ∀ w, fieldNN w = b → decodeFamilyE w = .ok (f w)) : DecodesAs 0xF0FF (14#4 ++ (0#4 ++ b)) f := by
  intro w hw
  obtain ⟨hfamily, hselector⟩ := lowByte_of_masked (f := 14#4) hw
  have hdecode : decodeWord w = decodeFamilyE w := by simp only [decodeWord, show familyOf w = 14 from hfamily]
  exact hdecode.trans (h w hselector)

/-! Rows 1 to 34 but for those with a lemma above, in the map's order. -/

theorem decodesAs_cls : DecodesAs 0xFFFF 0x00E0 (fun _ => .cls) := decodesAs_of_word rfl

theorem decodesAs_ret : DecodesAs 0xFFFF 0x00EE (fun _ => .ret) := decodesAs_of_word rfl

theorem decodesAs_call : DecodesAs 0xF000 0x2000 (fun w => .call (fieldNNN w)) :=
  decodesAs_of_family (n := 2) fun w (h : familyOf w = 2) => by simp only [decodeWord, h]

theorem decodesAs_seReg : DecodesAs 0xF00F 0x5000 (fun w => .seReg (fieldX w) (fieldY w)) :=
  decodesAs_of_selector (n := 5) (k := 0) fun w (h : familyOf w = 5) (hn : fieldN w = 0) => by
    simp only [decodeWord, h, if_pos hn]

theorem decodesAs_addReg : DecodesAs 0xF00F 0x8004 (fun w => .addReg (fieldX w) (fieldY w)) :=
  decodesAs_of_decodeFamily8 (n := 4) fun w (h : fieldN w = 4) => by simp only [decodeFamily8, h]

theorem decodesAs_subReg : DecodesAs 0xF00F 0x8005 (fun w => .subReg (fieldX w) (fieldY w)) :=
  decodesAs_of_decodeFamily8 (n := 5) fun w (h : fieldN w = 5) => by simp only [decodeFamily8, h]

theorem decodesAs_shr : DecodesAs 0xF00F 0x8006 (fun w => .shr (fieldX w) (fieldY w)) :=
  decodesAs_of_decodeFamily8 (n := 6) fun w (h : fieldN w = 6) => by simp only [decodeFamily8, h]

theorem decodesAs_subnReg : DecodesAs 0xF00F 0x8007 (fun w => .subnReg (fieldX w) (fieldY w)) :=
  decodesAs_of_decodeFamily8 (n := 7) fun w (h : fieldN w = 7) => by simp only [decodeFamily8, h]

theorem decodesAs_shl : DecodesAs 0xF00F 0x800E (fun w => .shl (fieldX w) (fieldY w)) :=
  decodesAs_of_decodeFamily8 (n := 14) fun w (h : fieldN w = 14) => by simp only [decodeFamily8, h]

theorem decodesAs_sneReg : DecodesAs 0xF00F 0x9000 (fun w => .sneReg (fieldX w) (fieldY w)) :=
  decodesAs_of_selector (n := 9) (k := 0) fun w (h : familyOf w = 9) (hn : fieldN w = 0) => by
    simp only [decodeWord, h, if_pos hn]

theorem decodesAs_jpV0 : DecodesAs 0xF000 0xB000 (fun w => .jpV0 (fieldNNN w)) :=
  decodesAs_of_family (n := 11) fun w (h : familyOf w = 11) => by simp only [decodeWord, h]

theorem decodesAs_rnd : DecodesAs 0xF000 0xC000 (fun w => .rnd (fieldX w) (fieldNN w)) :=
  decodesAs_of_family (n := 12) fun w (h : familyOf w = 12) => by simp only [decodeWord, h]

theorem decodesAs_drw : DecodesAs 0xF000 0xD000 (fun w => .drw (fieldX w) (fieldY w) (fieldN w)) :=
  decodesAs_of_family (n := 13) fun w (h : familyOf w = 13) => by simp only [decodeWord, h]

theorem decodesAs_skp : DecodesAs 0xF0FF 0xE09E (fun w => .skp (fieldX w)) :=
  decodesAs_of_decodeFamilyE (b := 0x9E) fun w h => by simp [decodeFamilyE, h]

theorem decodesAs_sknp : DecodesAs 0xF0FF 0xE0A1 (fun w => .sknp (fieldX w)) :=
  decodesAs_of_decodeFamilyE (b := 0xA1) fun w h => by simp [decodeFamilyE, h]

theorem decodesAs_ldVxDt : DecodesAs 0xF0FF 0xF007 (fun w => .ldVxDt (fieldX w)) :=
  decodesAs_of_decodeFamilyF (b := 0x07) fun w h => by simp [decodeFamilyF, h]

theorem decodesAs_ldVxK : DecodesAs 0xF0FF 0xF00A (fun w => .ldVxK (fieldX w)) :=
  decodesAs_of_decodeFamilyF (b := 0x0A) fun w h => by simp [decodeFamilyF, h]

theorem decodesAs_ldDtVx : DecodesAs 0xF0FF 0xF015 (fun w => .ldDtVx (fieldX w)) :=
  decodesAs_of_decodeFamilyF (b := 0x15) fun w h => by simp [decodeFamilyF, h]

theorem decodesAs_ldStVx : DecodesAs 0xF0FF 0xF018 (fun w => .ldStVx (fieldX w)) :=
  decodesAs_of_decodeFamilyF (b := 0x18) fun w h => by simp [decodeFamilyF, h]

theorem decodesAs_addI : DecodesAs 0xF0FF 0xF01E (fun w => .addI (fieldX w)) :=
  decodesAs_of_decodeFamilyF (b := 0x1E) fun w h => by simp [decodeFamilyF, h]

theorem decodesAs_ldB : DecodesAs 0xF0FF 0xF033 (fun w => .ldB (fieldX w)) :=
  decodesAs_of_decodeFamilyF (b := 0x33) fun w h => by simp [decodeFamilyF, h]

theorem decodesAs_ldMemVx : DecodesAs 0xF0FF 0xF055 (fun w => .ldMemVx (fieldX w)) :=
  decodesAs_of_decodeFamilyF (b := 0x55) fun w h => by simp [decodeFamilyF, h]

theorem decodesAs_ldVxMem : DecodesAs 0xF0FF 0xF065 (fun w => .ldVxMem (fieldX w)) :=
  decodesAs_of_decodeFamilyF (b := 0x65) fun w h => by simp [decodeFamilyF, h]

/-- Whether the words of a row all decode. -/
def RowDecodes (r : OpcodeRow) : Prop := ∃ f, DecodesAs r.mask r.opcode f

/-- Every row of the map decodes. -/
theorem opcodeMap_rowDecodes : ∀ r ∈ opcodeMap, RowDecodes r := by
  simp only [opcodeMap, List.forall_mem_append, List.forall_mem_cons, List.not_mem_nil, false_imp_iff, implies_true, and_true]
  exact ⟨⟨⟨
      ⟨⟨_, decodesAs_cls⟩, ⟨_, decodesAs_ret⟩, ⟨_, decodesAs_jp⟩, ⟨_, decodesAs_call⟩,
      ⟨_, decodesAs_seImm⟩, ⟨_, decodesAs_sneImm⟩, ⟨_, decodesAs_seReg⟩, ⟨_, decodesAs_ldImm⟩,
      ⟨_, decodesAs_addImm⟩⟩,
      ⟨_, decodesAs_ldReg⟩, ⟨_, decodesAs_orReg⟩, ⟨_, decodesAs_andReg⟩, ⟨_, decodesAs_xorReg⟩,
      ⟨_, decodesAs_addReg⟩, ⟨_, decodesAs_subReg⟩, ⟨_, decodesAs_shr⟩, ⟨_, decodesAs_subnReg⟩,
      ⟨_, decodesAs_shl⟩, ⟨_, decodesAs_sneReg⟩⟩,
      ⟨_, decodesAs_ldI⟩, ⟨_, decodesAs_jpV0⟩, ⟨_, decodesAs_rnd⟩, ⟨_, decodesAs_drw⟩, ⟨_, decodesAs_skp⟩,
      ⟨_, decodesAs_sknp⟩⟩,
      ⟨_, decodesAs_ldVxDt⟩, ⟨_, decodesAs_ldVxK⟩, ⟨_, decodesAs_ldDtVx⟩, ⟨_, decodesAs_ldStVx⟩,
      ⟨_, decodesAs_addI⟩, ⟨_, decodesAs_ldF⟩, ⟨_, decodesAs_ldB⟩, ⟨_, decodesAs_ldMemVx⟩,
      ⟨_, decodesAs_ldVxMem⟩⟩

/-- A word that matches a row of the map decodes. -/
theorem decodes_of_covered {r : OpcodeRow} {w : Word} (hr : r ∈ opcodeMap) (hw : r.covers w = true) :
    ∃ i, decodeWord w = .ok i := by
  obtain ⟨f, hf⟩ := opcodeMap_rowDecodes r hr
  exact ⟨f w, hf w (beq_iff_eq.mp hw)⟩

/-- Two rows disagree on a bit that both compare. -/
def RowsClash (r₁ r₂ : OpcodeRow) : Prop := r₁.opcode &&& r₂.mask ≠ r₂.opcode &&& r₁.mask

/-- The rows of the map clash pairwise. -/
theorem opcodeMap_rowsClash : opcodeMap.Pairwise RowsClash := by
  unfold RowsClash
  decide

/-- No word matches two rows that clash: under both masks it would be both opcodes. -/
theorem RowsClash.disjoint {r₁ r₂ : OpcodeRow} (h : RowsClash r₁ r₂) {w : Word} (h₁ : r₁.covers w = true) :
    r₂.covers w = false := by
  rw [Bool.eq_false_iff]
  intro h₂
  apply h
  rw [← beq_iff_eq.mp h₁, ← beq_iff_eq.mp h₂, BitVec.and_assoc, BitVec.and_assoc, BitVec.and_comm r₁.mask]

/-- A word matches at most one row of the map. -/
theorem row_eq_of_covers {r₁ r₂ : OpcodeRow} {w : Word} (hr₁ : r₁ ∈ opcodeMap) (hr₂ : r₂ ∈ opcodeMap)
    (h₁ : r₁.covers w = true) (h₂ : r₂.covers w = true) : r₁ = r₂ := by
  have : Std.Symm RowsClash := ⟨fun _ _ h => Ne.symm h⟩
  by_contra hne
  have hclash : RowsClash r₁ r₂ := opcodeMap_rowsClash.forall hr₁ hr₂ hne
  exact Bool.false_ne_true ((hclash.disjoint h₁).symm.trans h₂)

/-- The row of every instruction is in the map and covers the word the encoder writes (R96). -/
theorem encodedInTable : ∀ i : Instr, Laws.EncodedInTable.Statement i
  | .cls => Laws.EncodedInTable.cls
  | .ret => Laws.EncodedInTable.ret
  | .jp _ => Laws.EncodedInTable.jp _
  | .call _ => Laws.EncodedInTable.call _
  | .seImm _ _ => Laws.EncodedInTable.seImm _ _
  | .sneImm _ _ => Laws.EncodedInTable.sneImm _ _
  | .seReg _ _ => Laws.EncodedInTable.seReg _ _
  | .ldImm _ _ => Laws.EncodedInTable.ldImm _ _
  | .addImm _ _ => Laws.EncodedInTable.addImm _ _
  | .ldReg _ _ => Laws.EncodedInTable.ldReg _ _
  | .orReg _ _ => Laws.EncodedInTable.orReg _ _
  | .andReg _ _ => Laws.EncodedInTable.andReg _ _
  | .xorReg _ _ => Laws.EncodedInTable.xorReg _ _
  | .addReg _ _ => Laws.EncodedInTable.addReg _ _
  | .subReg _ _ => Laws.EncodedInTable.subReg _ _
  | .shr _ _ => Laws.EncodedInTable.shr _ _
  | .subnReg _ _ => Laws.EncodedInTable.subnReg _ _
  | .shl _ _ => Laws.EncodedInTable.shl _ _
  | .sneReg _ _ => Laws.EncodedInTable.sneReg _ _
  | .ldI _ => Laws.EncodedInTable.ldI _
  | .jpV0 _ => Laws.EncodedInTable.jpV0 _
  | .rnd _ _ => Laws.EncodedInTable.rnd _ _
  | .drw _ _ _ => Laws.EncodedInTable.drw _ _ _
  | .skp _ => Laws.EncodedInTable.skp _
  | .sknp _ => Laws.EncodedInTable.sknp _
  | .ldVxDt _ => Laws.EncodedInTable.ldVxDt _
  | .ldVxK _ => Laws.EncodedInTable.ldVxK _
  | .ldDtVx _ => Laws.EncodedInTable.ldDtVx _
  | .ldStVx _ => Laws.EncodedInTable.ldStVx _
  | .addI _ => Laws.EncodedInTable.addI _
  | .ldF _ => Laws.EncodedInTable.ldF _
  | .ldB _ => Laws.EncodedInTable.ldB _
  | .ldMemVx _ => Laws.EncodedInTable.ldMemVx _
  | .ldVxMem _ => Laws.EncodedInTable.ldVxMem _

/-- A word that decodes matches the row of its instruction, for it is that instruction's encoding. -/
theorem row_covers_of_decoded {w : Word} {i : Instr} (h : decodeWord w = .ok i) : i.row.covers w = true := by
  obtain ⟨-, rfl⟩ := encodeOfDecodeIsIdentity w i h
  exact (encodedInTable i).2

/-- Settles O13: a word that decodes matches its instruction's row, and rows are disjoint; a word that matches a row decodes. -/
theorem decoderIsTheOpcodeMap : Obligations.DecoderIsTheOpcodeMap := by
  refine ⟨fun i => (encodedInTable i).1, rfl, fun r₁ hr₁ r₂ hr₂ w => row_eq_of_covers hr₁ hr₂, fun w => ?_⟩
  split
  next i hi =>
    intro r hr
    have hown := row_covers_of_decoded hi
    exact ⟨fun h => row_eq_of_covers hr (encodedInTable i).1 h hown, fun h => h ▸ hown⟩
  next e he =>
    refine ⟨eq_unknownWord_of_decodeWord_error he, fun r hr => ?_⟩
    rw [Bool.eq_false_iff]
    intro h
    obtain ⟨i, hi⟩ := decodes_of_covered hr h
    rw [he] at hi
    cases hi

end Sys2Proof.Machine
end

section
/-! The command `step()` case by case (30_encoding.md R90, R100; 60_exceptions.md R204), and the word laid down for the host. -/

namespace Sys2Proof.Machine

/-- The word fetched is big-endian, each byte address reduced by itself (R64, D3, D25). -/
theorem fetchWord_toNat (s : State) :
    s.fetchWord.toNat = (s.memRead s.pc.toNat).toNat * 256 + (s.memRead (s.pc.toNat + 1)).toNat :=
  wordOfBytes_toNat _ _

/-- Settles O7: the decoded case of a running step; what decodes is well-formed by O12. -/
theorem stepRunsTheFetchedInstruction : Obligations.StepRunsTheFetchedInstruction := by
  intro s i hs hd
  refine ⟨step_of_decoded hs hd, (encodeOfDecodeIsIdentity _ i hd).1, ?_⟩
  rw [memRead_mod, memRead_mod, fetchWord_toNat]

/-- The status of a running step with an unknown word (R100). -/
theorem stepStatus_of_unknown {s : State} {e : DecodeError} (hs : s.err = .running)
    (hd : decodeWord s.fetchWord = .error e) : stepStatus s = .unknownOpcode := by
  simp only [stepStatus, hs, hd]

/-- The status of a running step that runs `i` (R90). -/
theorem stepStatus_of_decoded {s : State} {i : Instr} (hs : s.err = .running) (hd : decodeWord s.fetchWord = .ok i) :
    stepStatus s = instrStatus i s := by
  simp only [stepStatus, hs, hd]

/-- Settles O8: the unknown word is one advance of `pc`. -/
theorem unknownWordOnlyAdvancesPc : Obligations.UnknownWordOnlyAdvancesPc :=
  fun s _ hs hd =>
    ⟨s.advance, step_of_unknown hs hd, advance_pc s, unchangedBut_setPc s (s.pc + 2), stepStatus_of_unknown hs hd⟩

/-- Settles O9: by the cause latched, which is one of two. -/
theorem haltedStepChangesNothing : Obligations.HaltedStepChangesNothing := by
  intro s hs
  refine ⟨step_of_halted hs, ?_⟩
  cases herr : s.err with
  | running => exact absurd herr hs
  | stackOverflow => simp [stepStatus, herr, HaltCause.code]
  | stackUnderflow => simp [stepStatus, herr, HaltCause.code]

/-- A word of 16 bits, numbered in 16 bits, is itself. -/
theorem ofNat_toNat_mod (w : Word) : BitVec.ofNat 16 (w.toNat % 2 ^ 16) = w := by
  rw [Nat.mod_eq_of_lt w.isLt, BitVec.ofNat_toNat, BitVec.setWidth_eq]

/-- Laying down a whole word for the host is the store of its two bytes at `pc`, and `ERR` at running (log entry 4). -/
theorem withFetchWord_eq (s : State) (w : Word) :
    s.withFetchWord 16 w.toNat = (s.writeBytes s.pc.toNat (bytesOfWord w)).raise .running := by
  unfold State.withFetchWord
  rw [ofNat_toNat_mod]
  rfl

/-- Two bytes stored at `pc` are the word fetched there. -/
theorem fetchWord_writeBytes_bytesOfWord {s : State} (h : Memory.wf s.mem = true) (w : Word) :
    (s.writeBytes s.pc.toNat (bytesOfWord w)).fetchWord = w := by
  have hread := memRead_writeBytes_inside h s.pc.toNat (bytesOfWord w) (by decide : 2 ≤ 4096)
  have hhigh := hread 0 (by decide : 0 < 2)
  have hlow := hread 1 (by decide : 1 < 2)
  rw [State.fetchWord, writeBytes_pc]
  exact (congrArg₂ wordOfBytes hhigh hlow).trans (wordOfBytes_bytes w)

/-- Settles O10: the two bytes are read back, and the store and `ERR` are all that is written. -/
theorem placedWordIsFetched : Obligations.PlacedWordIsFetched := by
  intro s w hs
  rw [withFetchWord_eq]
  refine ⟨fetchWord_writeBytes_bytesOfWord hs.1 w, rfl, ?_⟩
  refine ((unchangedBut_writeBytes hs.1 s.pc.toNat (bytesOfWord w)).trans (unchangedBut_raise _ .running)).mono ?_
  rintro c (⟨k, hk, rfl⟩ | rfl)
  · have hk2 : k < 2 := hk
    interval_cases k
    · exact .inr (.inl rfl)
    · exact .inr (.inr rfl)
  · exact .inl rfl

/-- Settles O59: the word at `pc` is the encoding of `JP pc`, which decodes to it and writes `pc` with its own value. -/
theorem endOfRunIsStable : Obligations.EndOfRunIsStable := by
  rintro s ⟨hs, hpc, hword⟩
  have hlt : s.pc.toNat < 2 ^ 12 := by omega
  have hself : zextAddr (s.pc.setWidth 12) = s.pc := by
    apply BitVec.eq_of_toNat_eq
    rw [zextAddr_toNat, BitVec.toNat_setWidth, Nat.mod_eq_of_lt hlt]
  have hencoded : s.fetchWord = encodeWord (.jp (s.pc.setWidth 12)) := by
    apply BitVec.eq_of_toNat_eq
    rw [hword, encodeWord, formatA, BitVec.toNat_append, ← Nat.shiftLeft_add_eq_or_of_lt (BitVec.isLt _),
      BitVec.toNat_setWidth, Nat.mod_eq_of_lt hlt]
    rfl
  have hdecoded : decodeWord s.fetchWord = .ok (.jp (s.pc.setWidth 12)) := by
    rw [hencoded]
    exact decodeWord_encodeWord rfl
  refine ⟨?_, stepStatus_of_decoded hs hdecoded⟩
  rw [step_of_decoded hs hdecoded, exec_jp, hself]
  rfl

end Sys2Proof.Machine
end

section
/-! The skips on two registers and on a key (41_skip.md R132, R133; 45_keys_timers.md R180, R181). -/

namespace Sys2Proof.Machine

/-- Words of families 5 and 9 with another low nibble than 0 are unknown (R95, D8). -/
theorem decodeWord_unknown_of_lowNibble {w : Word} (hf : familyOf w = 5 ∨ familyOf w = 9) (hn : fieldN w ≠ 0) :
    decodeWord w = .error (.unknownWord w) := by
  obtain h | h := hf <;> simp only [decodeWord, h, if_neg hn]

/-- `SE Vx, Vy` completes from every state and skips on equality (R132). -/
theorem exec_seReg (x y : Reg) (s : State) : exec (.seReg x y) s = .next (s.skipIf (s.reg x == s.reg y)) := rfl

/-- `SNE Vx, Vy` completes from every state and skips on inequality (R133). -/
theorem exec_sneReg (x y : Reg) (s : State) : exec (.sneReg x y) s = .next (s.skipIf (s.reg x != s.reg y)) := rfl

/-- Settles O24: each row decodes by its family and low nibble, and each instruction is a skip on its rule's condition. -/
theorem registerSkips : Obligations.RegisterSkips :=
  ⟨decodesAs_seReg, decodesAs_sneReg, fun _ => decodeWord_unknown_of_lowNibble, fun x y s =>
    ⟨exec_skip_spec (exec_seReg x y s) beq_iff_eq, exec_skip_spec (exec_sneReg x y s) bne_iff_ne⟩⟩

/-- `SKP Vx` completes from every state and skips when the key Vx names is pressed (R180). -/
theorem exec_skp (x : Reg) (s : State) : exec (.skp x) s = .next (s.skipIf (s.pressed (keyOf (s.reg x)))) := rfl

/-- `SKNP Vx` completes from every state and skips when the key Vx names is not pressed (R181). -/
theorem exec_sknp (x : Reg) (s : State) : exec (.sknp x) s = .next (s.skipIf (!s.pressed (keyOf (s.reg x)))) := rfl

/-- Settles O25: the key Vx names is the one of its low nibble, and each instruction is a skip on its rule's condition. -/
theorem keySkips : Obligations.KeySkips := by
  intro x s k hk
  obtain rfl : k = keyOf (s.reg x) := Fin.ext (hk.trans (keyOf_val (s.reg x)).symm)
  exact ⟨exec_skip_spec (exec_skp x s) Iff.rfl, exec_skip_spec (exec_sknp x s) (by rw [Bool.not_eq_true'])⟩

end Sys2Proof.Machine
end

section
/-! The flag writers of 42_alu.md (R146 to R150): one lemma for their shape, in all four uses of register 15, and the arithmetic
of each flag and result. -/

namespace Sys2Proof.Machine

/-- The flag-then-result shape writes Vx, VF and `pc` (R9). -/
theorem unchangedBut_flagThenResult (s : State) (flag result : Byte → Byte → Byte) (x y : Reg) :
    UnchangedBut (fun c => c = .v x ∨ c = .v 15 ∨ c = .pc) s (s.flagThenResult flag result x y) := by
  have hframe : UnchangedBut (fun c => (c = .v 15 ∨ c = .v x) ∨ c = .pc) s (s.flagThenResult flag result x y) :=
    ((unchangedBut_setReg s VF _).trans (unchangedBut_setReg _ x _)).advance
  exact hframe.mono fun c hc => by tauto

/-- What a flag writer leaves, by the use of register 15. `n` is the flag of the values at entry, `g` the result on numbers; a
source that is VF is read after the flag is written (R139, D9). -/
theorem exec_flagThenResult_spec {i : Instr} {s : State} {flag result : Byte → Byte → Byte} {x y : Reg}
    (hexec : exec i s = .next (s.flagThenResult flag result x y)) {n : Nat} {g : Nat → Nat → Nat}
    (hflag : (flag (s.reg x) (s.reg y)).toNat = n) (hresult : ∀ a b, (result a b).toNat = g a.toNat b.toNat) :
    ∃ t, exec i s = .next t ∧
      (x ≠ 15 → (t.reg 15).toNat = n) ∧
      (x ≠ 15 → y ≠ 15 → (t.reg x).toNat = g (s.reg x).toNat (s.reg y).toNat) ∧
      (x = 15 → y ≠ 15 → (t.reg 15).toNat = g n (s.reg y).toNat) ∧
      (x ≠ 15 → y = 15 → (t.reg x).toNat = g (s.reg x).toNat n) ∧
      (x = 15 → y = 15 → (t.reg 15).toNat = g n n) ∧
      t.pc.toNat = (s.pc.toNat + 2) % 65536 ∧ UnchangedBut (fun c => c = .v x ∨ c = .v 15 ∨ c = .pc) s t := by
  have hreg := flagThenResult_reg s flag result x y
  refine ⟨_, hexec, fun hx => ?_, fun hx hy => ?_, fun hx hy => ?_, fun hx hy => ?_, fun hx hy => ?_,
    advance_pc_toNat _, unchangedBut_flagThenResult s flag result x y⟩
  · rw [hreg, if_neg (Ne.symm hx), if_pos rfl, hflag]
  · rw [hreg, if_pos rfl, if_neg hx, if_neg hy, hresult]
  · rw [hreg, if_pos hx.symm, if_pos hx, if_neg hy, hresult, hflag]
  · rw [hreg, if_pos rfl, if_neg hx, if_pos hy, hresult, hflag]
  · rw [hreg, if_pos hx.symm, if_pos hx, if_pos hy, hresult, hflag]

theorem flagByte_decide_toNat (p : Prop) [Decidable p] : (flagByte (decide p)).toNat = if p then 1 else 0 := by
  rw [flagByte_toNat]
  by_cases hp : p <;> simp [hp]

theorem carryFlag_toNat (a b : Byte) : (carryFlag a b).toNat = if a.toNat + b.toNat > 255 then 1 else 0 :=
  flagByte_decide_toNat _

theorem noBorrowFlag_toNat (a b : Byte) : (noBorrowFlag a b).toNat = if b.toNat > a.toNat then 0 else 1 := by
  rw [noBorrowFlag, flagByte_decide_toNat]
  split_ifs <;> omega

theorem shiftedOutRight_toNat (a : Byte) : (shiftedOutRight a).toNat = a.toNat % 2 := by
  revert a; decide

theorem shiftedOutLeft_toNat (a : Byte) : (shiftedOutLeft a).toNat = a.toNat / 128 := by
  revert a; decide

/-- The 8-bit difference, without a negative number. -/
theorem byte_sub_toNat (a b : Byte) : (a - b).toNat = (a.toNat + 256 - b.toNat) % 256 := by
  have hb := b.isLt
  rw [BitVec.toNat_sub]
  congr 1
  omega

theorem byte_shiftRight_toNat (a : Byte) : (a >>> 1).toNat = a.toNat / 2 := by
  rw [BitVec.toNat_ushiftRight, Nat.shiftRight_eq_div_pow, pow_one]

theorem byte_shiftLeft_toNat (a : Byte) : (a <<< 1).toNat = 2 * a.toNat % 256 := by
  rw [BitVec.toNat_shiftLeft, Nat.shiftLeft_eq, pow_one, Nat.mul_comm]

/-- Settles O28: the shape with the carry and the sum; with both operands VF the sum of two carries does not wrap. -/
theorem addSetsCarry : Obligations.AddSetsCarry := by
  intro x y s
  obtain ⟨t, hexec, hflag, hplain, hx, hy, hboth, hpc, hframe⟩ :=
    exec_flagThenResult_spec (i := .addReg x y) (s := s) rfl (carryFlag_toNat _ _)
      (g := fun a b => (a + b) % 256) BitVec.toNat_add
  refine ⟨t, _, hexec, rfl, hflag, hplain, hx, hy, fun hx15 hy15 => ?_, hpc, hframe⟩
  rw [hboth hx15 hy15]
  split_ifs <;> rfl

/-- Settles O29: the shape with no-borrow and the difference; with both operands VF the flag is subtracted from itself. -/
theorem subSetsNoBorrow : Obligations.SubSetsNoBorrow := by
  intro x y s
  obtain ⟨t, hexec, hflag, hplain, hx, hy, hboth, hpc, hframe⟩ :=
    exec_flagThenResult_spec (i := .subReg x y) (s := s) rfl (noBorrowFlag_toNat _ _)
      (g := fun a b => (a + 256 - b) % 256) byte_sub_toNat
  refine ⟨t, _, hexec, rfl, hflag, hplain, hx, hy, fun hx15 hy15 => ?_, hpc, hframe⟩
  rw [hboth hx15 hy15]
  split_ifs <;> rfl

/-- Settles O30: as O29, with the operands exchanged. -/
theorem subnSetsNoBorrow : Obligations.SubnSetsNoBorrow := by
  intro x y s
  obtain ⟨t, hexec, hflag, hplain, hx, hy, hboth, hpc, hframe⟩ :=
    exec_flagThenResult_spec (i := .subnReg x y) (s := s) rfl (noBorrowFlag_toNat _ _)
      (g := fun a b => (b + 256 - a) % 256) (fun a b => byte_sub_toNat b a)
  refine ⟨t, _, hexec, rfl, hflag, hplain, hx, hy, fun hx15 hy15 => ?_, hpc, hframe⟩
  rw [hboth hx15 hy15]
  split_ifs <;> rfl

/-- `SHR Vx`: the shape with both operands Vx (R148). -/
theorem exec_shr_spec (x y : Reg) (s : State) :
    ∃ t, exec (.shr x y) s = .next t ∧
      (x ≠ 15 → (t.reg x).toNat = (s.reg x).toNat / 2 ∧ (t.reg 15).toNat = (s.reg x).toNat % 2) ∧
      (x = 15 → (t.reg 15).toNat = 0) ∧
      t.pc.toNat = (s.pc.toNat + 2) % 65536 ∧ UnchangedBut (fun d => d = .v x ∨ d = .v 15 ∨ d = .pc) s t := by
  obtain ⟨t, hexec, hflag, hplain, -, -, hboth, hpc, hframe⟩ :=
    exec_flagThenResult_spec (i := .shr x y) (s := s) rfl (shiftedOutRight_toNat _)
      (g := fun a _ => a / 2) (fun a _ => byte_shiftRight_toNat a)
  refine ⟨t, hexec, fun hx => ⟨hplain hx hx, hflag hx⟩, fun hx => ?_, hpc, hframe⟩
  rw [hboth hx hx]
  omega

/-- `SHL Vx`: the shape with both operands Vx (R150). -/
theorem exec_shl_spec (x y : Reg) (s : State) :
    ∃ t, exec (.shl x y) s = .next t ∧
      (x ≠ 15 → (t.reg x).toNat = 2 * (s.reg x).toNat % 256 ∧ (t.reg 15).toNat = (s.reg x).toNat / 128) ∧
      (x = 15 → (t.reg 15).toNat = if (s.reg 15).toNat ≥ 128 then 2 else 0) ∧
      t.pc.toNat = (s.pc.toNat + 2) % 65536 ∧ UnchangedBut (fun d => d = .v x ∨ d = .v 15 ∨ d = .pc) s t := by
  obtain ⟨t, hexec, hflag, hplain, -, -, hboth, hpc, hframe⟩ :=
    exec_flagThenResult_spec (i := .shl x y) (s := s) rfl (shiftedOutLeft_toNat _)
      (g := fun a _ => 2 * a % 256) (fun a _ => byte_shiftLeft_toNat a)
  refine ⟨t, hexec, fun hx => ⟨hplain hx hx, hflag hx⟩, fun hx => ?_, hpc, hframe⟩
  have hlt := (s.reg 15).isLt
  rw [hboth hx hx, hx]
  split_ifs <;> omega

/-- Settles O31: both shifts; the field `y` does not occur in what they do. -/
theorem shiftsMoveOneBitIntoVF : Obligations.ShiftsMoveOneBitIntoVF :=
  fun x y s => ⟨exec_shr_spec x y s, exec_shl_spec x y s⟩

end Sys2Proof.Machine
end

section
/-! The random instruction `RND Vx, nn` (42_alu.md R151), for every draw. -/

namespace Sys2Proof.Machine

theorem rndWith_reg (r : Byte) (x : Reg) (nn : Byte) (s : State) : (rndWith r x nn s).reg x = r &&& nn :=
  reg_setReg_self s x (r &&& nn)

theorem unchangedBut_rndWith (r : Byte) (x : Reg) (nn : Byte) (s : State) :
    UnchangedBut (fun c => c = .v x ∨ c = .pc) s (rndWith r x nn s) :=
  (unchangedBut_setReg s x (r &&& nn)).advance

/-- `RND Vx, nn` completes from every state with the draw counted (R151, log entry 2). -/
theorem exec_rnd (x : Reg) (nn : Byte) (s : State) :
    exec (.rnd x nn) s = .next (rndWith (Config.rndByte s.draws) x nn s.countDraw) := rfl

/-- The bytes within a mask are the bytes with no bit outside it. -/
theorem exists_and_eq_iff (nn b : Byte) : (∃ r, r &&& nn = b) ↔ b &&& ~~~nn = 0#8 := by
  constructor
  · rintro ⟨r, rfl⟩
    rw [BitVec.and_assoc, BitVec.and_not_self]
    exact BitVec.and_zero
  · intro h
    refine ⟨b, ?_⟩
    calc b &&& nn = (b &&& nn) ||| (b &&& ~~~nn) := by rw [h, BitVec.or_zero]
      _ = b &&& (nn ||| ~~~nn) := (BitVec.and_or_distrib_left).symm
      _ = b := by rw [BitVec.or_not_self, BitVec.and_allOnes]

/-- Settles O32: one write of the masked draw and the advance; the masked draws are the bytes within the mask. -/
theorem randomIsMaskedDraw : Obligations.RandomIsMaskedDraw := by
  refine fun x nn s => ⟨⟨_, exec_rnd x nn s, rndWith_reg _ x nn s.countDraw, rfl, advance_pc_toNat _, ?_⟩, fun b => ?_,
    fun r => ⟨rndWith_reg r x nn s, unchangedBut_rndWith r x nn s⟩⟩
  · exact ((unchangedBut_countDraw s).trans (unchangedBut_rndWith _ x nn s.countDraw)).mono fun c hc =>
      hc.elim False.elim id
  · simp only [rndWith_reg]
    exact exists_and_eq_iff nn b

end Sys2Proof.Machine
end

section
/-! The index register and memory instructions (43_index_memory.md R161, R163 to R165): the flag of `ADD I, Vx`, what the two
stores leave in memory, what the group load leaves in the registers, and the fetch after a store (20_memory.md R72). -/

namespace Sys2Proof.Machine

theorem indexPastFlag_toNat (i : Word) (b : Byte) :
    (indexPastFlag i b).toNat = if i.toNat + b.toNat > 0xFFF then 1 else 0 :=
  flagByte_decide_toNat _

/-- `ADD I, Vx` completes from every state: VF, then `I`, then the advance (R161). -/
theorem exec_addI (x : Reg) (s : State) :
    exec (.addI x) s =
      .next (((s.setReg VF (indexPastFlag s.i (s.reg x))).setI
        (s.i + zextByte ((s.setReg VF (indexPastFlag s.i (s.reg x))).reg x))).advance) := rfl

/-- Settles O34: the register added is read after VF is written, which shows only when it is VF itself. -/
theorem addToIndexFlagsPast0xFFF : Obligations.AddToIndexFlagsPast0xFFF := by
  intro x s
  have hflag := indexPastFlag_toNat s.i (s.reg x)
  refine ⟨_, _, exec_addI x s, rfl, ?_, ?_, advance_pc_toNat _, ?_⟩
  · rw [advance_reg, setI_reg, reg_setReg_self, hflag]
  · rw [advance_i, setI_i, BitVec.toNat_add, zextByte_toNat, reg_setReg]
    by_cases hx : x = 15
    · rw [if_pos hx, if_pos hx, hflag]
    · rw [if_neg hx, if_neg hx]
  · exact ((unchangedBut_setReg s VF _).trans (unchangedBut_setI _ _)).advance.mono fun c hc => or_assoc.mp hc

/-! ### The stores -/

/-- Byte `k` of a group at `I` is at `I + k` (R65). -/
theorem indexed_zero_add (s : State) (k : Nat) : s.indexed 0 + k = s.indexed k := by
  simp only [State.indexed, Nat.add_zero]

/-- A group stored at `I` is read back byte by byte (R163, R164). -/
theorem memRead_indexed_writeBytes {s : State} (h : Memory.wf s.mem = true) {bs : List Byte} (hlen : bs.length ≤ 16)
    {k : Nat} (hk : k < bs.length) : (s.writeBytes (s.indexed 0) bs).memRead (s.indexed k) = bs[k] := by
  rw [← indexed_zero_add]
  exact memRead_writeBytes_inside h _ bs (by omega) k hk

/-- A group stored at `I` changes the bytes from `I` on, and nothing else. -/
theorem unchangedBut_indexed_writeBytes {s : State} (h : Memory.wf s.mem = true) (bs : List Byte) :
    UnchangedBut (fun c => ∃ k < bs.length, c = memCell (s.indexed k)) s (s.writeBytes (s.indexed 0) bs) := by
  have hframe := unchangedBut_writeBytes h (s.indexed 0) bs
  simpa only [indexed_zero_add] using hframe

/-- `LD B, Vx` completes from every state: three stores and the advance (R163). -/
theorem exec_ldB (x : Reg) (s : State) :
    exec (.ldB x) s = .next (s.writeBytes (s.indexed 0) (bcdDigits (s.reg x))).advance := rfl

/-- `LD [I], Vx` completes from every state: the stores, `I`, and the advance (R164). -/
theorem exec_ldMemVx (x : Reg) (s : State) :
    exec (.ldMemVx x) s =
      .next ((s.writeBytes (s.indexed 0) ((regsUpTo x).map s.reg)).setI (s.indexAfter x)).advance := rfl

/-- The digits, hundreds first (R67). -/
theorem bcdDigits_getElem_toNat (b : Byte) {k : Nat} (hk : k < 3) :
    ((bcdDigits b)[k]'hk).toNat = b.toNat / 10 ^ (2 - k) % 10 := by
  have hb := b.isLt
  interval_cases k <;> simp [bcdDigits] <;> omega

/-- What `LD B, Vx` stores at `I + k` (R163). -/
theorem memRead_of_exec_ldB {x : Reg} {s t : State} (h : Memory.wf s.mem = true) (ht : exec (.ldB x) s = .next t)
    {k : Nat} (hk : k < 3) : (t.memRead (s.indexed k)).toNat = (s.reg x).toNat / 10 ^ (2 - k) % 10 := by
  rw [exec_ldB] at ht
  cases ht
  have hread := memRead_indexed_writeBytes h (bs := bcdDigits (s.reg x)) (by decide : 3 ≤ 16) hk
  rw [advance_memRead, hread]
  exact bcdDigits_getElem_toNat (s.reg x) hk

theorem length_map_regsUpTo (x : Reg) (f : Reg → Byte) : ((regsUpTo x).map f).length = x.val + 1 := by
  rw [List.length_map, length_regsUpTo]

/-- What `LD [I], Vx` stores at `I + r` (R164). -/
theorem memRead_of_exec_ldMemVx {x : Reg} {s t : State} (h : Memory.wf s.mem = true)
    (ht : exec (.ldMemVx x) s = .next t) {r : Reg} (hr : r ≤ x) : t.memRead (s.indexed r.val) = s.reg r := by
  rw [exec_ldMemVx] at ht
  cases ht
  have hlen := length_map_regsUpTo x s.reg
  have hrx : r.val ≤ x.val := hr
  have hstored : ((regsUpTo x).map s.reg)[r.val]? = some (s.reg r) := by
    rw [List.getElem?_map, getElem?_regsUpTo x r hrx, Option.map_some]
  have hget : ((regsUpTo x).map s.reg)[r.val]'(by omega) = s.reg r := List.getElem_eq_iff _ |>.mpr hstored
  rw [advance_memRead, setI_memRead, memRead_indexed_writeBytes h (by omega) (by omega), hget]

/-- `I` after a group form, modulo 65536 (R164, R165). -/
theorem indexAfter_toNat (s : State) (x : Reg) : (s.indexAfter x).toNat = (s.i.toNat + x.val + 1) % 65536 := by
  simp only [State.indexAfter, BitVec.toNat_add, BitVec.toNat_ofNat]
  omega

/-- Settles O35: three stores at `I` read back, which with `pc` are all that is written. -/
theorem bcdStoresThreeDigits : Obligations.BcdStoresThreeDigits := by
  intro x s h
  have hdigit := fun k (hk : k < 3) => memRead_of_exec_ldB h (exec_ldB x s) hk
  have hlt := (s.reg x).isLt
  have hhundreds := hdigit 0 (by decide)
  refine ⟨_, exec_ldB x s, ?_, hdigit 1 (by decide), ?_, advance_pc_toNat _, ?_⟩
  · exact hhundreds.trans (Nat.mod_eq_of_lt (show (s.reg x).toNat / 100 < 10 by omega))
  · rw [hdigit 2 (by decide), Nat.sub_self, pow_zero, Nat.div_one]
  · exact (unchangedBut_indexed_writeBytes h (bcdDigits (s.reg x))).advance.mono fun c hc => hc.symm

/-- Settles O36: `X + 1` stores at `I` read back, which with `I` and `pc` are all that is written. -/
theorem dumpStoresRegistersUpToX : Obligations.DumpStoresRegistersUpToX := by
  intro x s h
  refine ⟨_, exec_ldMemVx x s, fun r hr => memRead_of_exec_ldMemVx h (exec_ldMemVx x s) hr, indexAfter_toNat s x, ?_, ?_⟩
  · rw [advance_pc_toNat, setI_pc, writeBytes_pc]
  · refine ((unchangedBut_indexed_writeBytes h ((regsUpTo x).map s.reg)).trans (unchangedBut_setI _ _)).advance.mono ?_
    rintro c ((⟨k, hk, hc⟩ | hc) | hc)
    · rw [length_map_regsUpTo] at hk
      exact .inr (.inr ⟨k, Nat.le_of_lt_succ hk, hc⟩)
    · exact .inl hc
    · exact .inr (.inl hc)

/-! ### The group load -/

/-- `LD Vx, [I]` completes from every state: the loads, `I`, and the advance (R165). -/
theorem exec_ldVxMem (x : Reg) (s : State) :
    exec (.ldVxMem x) s = .next ((s.loadRegs (regsUpTo x)).setI (s.indexAfter x)).advance := rfl

/-- What `LD Vx, [I]` loads into V0 to VX (R165). -/
theorem reg_of_exec_ldVxMem {x : Reg} {s t : State} (ht : exec (.ldVxMem x) s = .next t) {r : Reg} (hr : r ≤ x) :
    t.reg r = s.memRead (s.indexed r.val) := by
  rw [exec_ldVxMem] at ht
  cases ht
  rw [advance_reg, setI_reg, loadRegs_reg, if_pos ((mem_regsUpTo r x).mpr hr)]

/-- Settles O37: the loads, `I` and `pc` are all that is written. -/
theorem loadFillsRegistersUpToX : Obligations.LoadFillsRegistersUpToX := by
  intro x s
  refine ⟨_, exec_ldVxMem x s, fun r hr => reg_of_exec_ldVxMem (exec_ldVxMem x s) hr, indexAfter_toNat s x, ?_, ?_⟩
  · rw [advance_pc_toNat, setI_pc, loadRegs_pc]
  · refine ((unchangedBut_loadRegs s (regsUpTo x)).trans (unchangedBut_setI _ _)).advance.mono ?_
    rintro c ((⟨r, hr, hc⟩ | hc) | hc)
    · exact .inr (.inr ⟨r, (mem_regsUpTo r x).mp hr, hc⟩)
    · exact .inl hc
    · exact .inr (.inl hc)

theorem memRead_congr_state {s t : State} (h : s.mem = t.mem) (a : Nat) : s.memRead a = t.memRead a := by
  rw [State.memRead, State.memRead, h]

theorem indexed_congr_state {s t : State} (h : s.i = t.i) (k : Nat) : s.indexed k = t.indexed k := by
  rw [State.indexed, State.indexed, h]

/-- Settles O38: the load reads at the addresses of the store, which hold what was stored. -/
theorem loadRestoresWhatDumpStored : Obligations.LoadRestoresWhatDumpStored := by
  intro x s t u hwf ht hmem hi
  refine ⟨_, exec_ldVxMem x u, fun r hr => ?_⟩
  calc _ = u.memRead (u.indexed r.val) := reg_of_exec_ldVxMem (exec_ldVxMem x u) hr
    _ = t.memRead (s.indexed r.val) := by rw [indexed_congr_state hi, memRead_congr_state hmem]
    _ = s.reg r := memRead_of_exec_ldMemVx hwf ht hr

/-! ### The fetch after a store -/

/-- The high byte of the word fetched is the byte at `pc` (R64, R67). -/
theorem fetchWord_high {t : State} {a : Nat} (h : a % 4096 = t.pc.toNat % 4096) :
    t.fetchWord.toNat / 256 = (t.memRead a).toNat := by
  have hlow := (t.memRead (t.pc.toNat + 1)).isLt
  rw [fetchWord_toNat, memRead_congr h]
  omega

/-- The low byte of the word fetched is the byte at `pc + 1` (R64, R67). -/
theorem fetchWord_low {t : State} {a : Nat} (h : a % 4096 = (t.pc.toNat + 1) % 4096) :
    t.fetchWord.toNat % 256 = (t.memRead a).toNat := by
  have hlow := (t.memRead (t.pc.toNat + 1)).isLt
  rw [fetchWord_toNat, memRead_congr h]
  omega

/-- After an instruction that advanced `pc` by 2, the bytes of the next word are those at the old `pc` plus 2 and 3. -/
theorem fetchWord_after_advance {s t : State} (hpc : t.pc.toNat = (s.pc.toNat + 2) % 65536) (a : Nat) :
    (a % 4096 = (s.pc.toNat + 2) % 4096 → t.fetchWord.toNat / 256 = (t.memRead a).toNat) ∧
      (a % 4096 = (s.pc.toNat + 3) % 4096 → t.fetchWord.toNat % 256 = (t.memRead a).toNat) :=
  ⟨fun h => fetchWord_high (by omega), fun h => fetchWord_low (by omega)⟩

theorem pc_of_exec_ldB {x : Reg} {s t : State} (ht : exec (.ldB x) s = .next t) :
    t.pc.toNat = (s.pc.toNat + 2) % 65536 := by
  rw [exec_ldB] at ht
  cases ht
  rw [advance_pc_toNat, writeBytes_pc]

theorem pc_of_exec_ldMemVx {x : Reg} {s t : State} (ht : exec (.ldMemVx x) s = .next t) :
    t.pc.toNat = (s.pc.toNat + 2) % 65536 := by
  rw [exec_ldMemVx] at ht
  cases ht
  rw [advance_pc_toNat, setI_pc, writeBytes_pc]

/-- Settles O39: both stores advance `pc` by 2, and the byte fetched there is the one stored. -/
theorem nextFetchSeesTheStore : Obligations.NextFetchSeesTheStore := by
  refine fun x s t hwf => ⟨fun ht k hk => ?_, fun ht k hk => ?_⟩
  · rw [← memRead_of_exec_ldMemVx hwf ht hk]
    exact fetchWord_after_advance (pc_of_exec_ldMemVx ht) (s.indexed k.val)
  · rw [← memRead_of_exec_ldB hwf ht hk]
    exact fetchWord_after_advance (pc_of_exec_ldB ht) (s.indexed k)

end Sys2Proof.Machine
end

section
/-! The display instructions (44_display.md R170 to R172): what `DRW` leaves in each cell and in VF, and drawing twice. -/

namespace Sys2Proof.Machine

/-- Settles O40: by O12 only the encoding of `CLS` decodes to it; it writes the framebuffer, `DF` and `pc`. -/
theorem clearScreenBlanksAndSetsDF : Obligations.ClearScreenBlanksAndSetsDF := by
  refine ⟨fun w => ⟨fun h => (encodeOfDecodeIsIdentity w _ h).2.symm, fun h => h ▸ rfl⟩, fun s => ?_⟩
  refine ⟨_, rfl, fun k => Framebuffer.cell_blank k, rfl, advance_pc_toNat _, ?_⟩
  exact ((unchangedBut_setFb s _).trans (unchangedBut_setDf _ true)).advance.mono fun c hc => or_assoc.mp hc

/-- The cells the 1 bits of the sprite of `DRW Vx, Vy, n` reach (R172). -/
def State.spriteTargets (s : State) (x y : Reg) (n : Nat) : List (Fin 2048) :=
  spriteCells (s.reg x).toNat (s.reg y).toNat 0 (s.spriteRows n)

/-- The targets by row and column (R172). -/
theorem mem_spriteTargets {s : State} {x y : Reg} {n : Nat} {k : Fin 2048} :
    k ∈ s.spriteTargets x y n ↔
      ∃ row < n, ∃ col < 8, (s.memRead (s.indexed row)).getLsbD (7 - col) = true ∧
        k.val = ((s.reg y).toNat + row) % 32 * 64 + ((s.reg x).toNat + col) % 64 := by
  rw [State.spriteTargets, mem_drawingCells]
  simp only [spriteBit, Fin.ext_iff, pixelIndex_val, eq_comm (b := k.val)]

/-- The targets depend on memory, `I` and the two coordinates only. -/
theorem spriteTargets_congr {s u : State} {x y x' y' : Reg} (hmem : u.mem = s.mem) (hi : u.i = s.i)
    (hx : u.reg x' = s.reg x) (hy : u.reg y' = s.reg y) (n : Nat) : u.spriteTargets x' y' n = s.spriteTargets x y n := by
  have hrows : u.spriteRows n = s.spriteRows n := by
    simp only [State.spriteRows, memRead_congr_state hmem, indexed_congr_state hi]
  rw [State.spriteTargets, State.spriteTargets, hx, hy, hrows]

/-- `DRW` completes from every state (R171). -/
theorem exec_drw (x y : Reg) (n : Nat) (s : State) :
    exec (.drw x y n) s =
      .next (((s.setFb (s.drawing x y n).fb).setReg VF (collisionFlag (s.drawing x y n).hit)).setDf true).advance := rfl

/-- `DRW` flips the targets and no other cell (R171). -/
theorem pixel_of_exec_drw {x y : Reg} {n : Nat} {s t : State} (hn : n < 16) (ht : exec (.drw x y n) s = .next t)
    (k : Fin 2048) : t.pixel k = if k ∈ s.spriteTargets x y n then !s.pixel k else s.pixel k := by
  rw [exec_drw] at ht
  cases ht
  exact drawing_cell s x y n (by omega) k

/-- VF after `DRW` says whether a target was lit; `p` is any way to say that (R171). -/
theorem vf_of_exec_drw {x y : Reg} {n : Nat} {s t : State} (hn : n < 16) (ht : exec (.drw x y n) s = .next t) {p : Prop}
    [Decidable p] (hp : (∃ k ∈ s.spriteTargets x y n, s.pixel k = true) ↔ p) : t.reg 15 = if p then 1 else 0 := by
  rw [exec_drw] at ht
  cases ht
  have hhit : (s.drawing x y n).hit = decide p := by
    rw [Bool.eq_iff_iff, decide_eq_true_iff, ← hp]
    exact drawing_hit s x y n (by omega)
  rw [advance_reg, setDf_reg, reg_setReg_self, hhit]
  by_cases h : p <;> simp [h, collisionFlag, flagByte]

/-- A cell changes in a drawing exactly when it is a target. -/
theorem pixel_ne_iff_of_exec_drw {x y : Reg} {n : Nat} {s t : State} (hn : n < 16) (ht : exec (.drw x y n) s = .next t)
    (k : Fin 2048) : t.pixel k ≠ s.pixel k ↔ k ∈ s.spriteTargets x y n := by
  rw [pixel_of_exec_drw hn ht]
  split_ifs with hk <;> simp [hk]

/-- A drawing clears a lit cell exactly when a target was lit. -/
theorem cleared_iff_of_exec_drw {x y : Reg} {n : Nat} {s t : State} (hn : n < 16) (ht : exec (.drw x y n) s = .next t) :
    (∃ k ∈ s.spriteTargets x y n, s.pixel k = true) ↔ ∃ k, s.pixel k = true ∧ t.pixel k = false := by
  refine exists_congr fun k => ?_
  rw [← pixel_ne_iff_of_exec_drw hn ht]
  cases s.pixel k <;> simp

/-- A drawing lights a dark cell exactly when a target is lit after it. -/
theorem lit_iff_of_exec_drw {x y : Reg} {n : Nat} {s t : State} (hn : n < 16) (ht : exec (.drw x y n) s = .next t) :
    (∃ k ∈ s.spriteTargets x y n, t.pixel k = true) ↔ ∃ k, s.pixel k = false ∧ t.pixel k = true := by
  refine exists_congr fun k => ?_
  rw [← pixel_ne_iff_of_exec_drw hn ht]
  cases t.pixel k <;> simp

/-- Settles O41: the changed cells are the targets, VF is the hit, and four kinds of cell are written. -/
theorem drawXorsSpriteAndFlagsCollision : Obligations.DrawXorsSpriteAndFlagsCollision := by
  intro x y n s hn
  have ht := exec_drw x y n s
  refine ⟨_, ht, fun k => (pixel_ne_iff_of_exec_drw hn ht k).trans mem_spriteTargets,
    vf_of_exec_drw hn ht (cleared_iff_of_exec_drw hn ht), rfl, advance_pc_toNat _, ?_⟩
  refine (((unchangedBut_setFb s _).trans (unchangedBut_setReg _ VF _)).trans (unchangedBut_setDf _ true)).advance.mono ?_
  intro c hc
  simpa only [or_assoc] using hc

/-- Settles O42: both drawings have the same targets, so each cell is flipped twice or not at all; the second one finds a lit
target exactly when the first lit one. -/
theorem drawingTwiceRestoresFramebuffer : Obligations.DrawingTwiceRestoresFramebuffer := by
  intro x y x' y' n s t u hn ht hfb hmem hi hx hy
  have hv := exec_drw x' y' n u
  have htargets := spriteTargets_congr hmem hi hx hy n
  have hu : ∀ k, u.pixel k = t.pixel k := fun k => by rw [State.pixel, State.pixel, hfb]
  refine ⟨_, hv, fun k => ?_, vf_of_exec_drw hn hv ?_⟩
  · rw [pixel_of_exec_drw hn hv, htargets, hu, pixel_of_exec_drw hn ht]
    split_ifs
    · exact Bool.not_not _
    · rfl
  · simp only [htargets, hu]
    exact lit_iff_of_exec_drw hn ht

end Sys2Proof.Machine
end

section
/-! The key and timer instructions (45_keys_timers.md R182 to R185), the tick (60_exceptions.md R215), and the host's ports
(10_state.md R36 to R40). -/

namespace Sys2Proof.Machine

/-- `LD Vx, K` with a key found is one write of Vx and the advance (R183). -/
theorem exec_ldVxK_of_some {x : Reg} {s : State} {k : Fin 16} (h : s.scanKeys = some k) :
    exec (.ldVxK x) s = .next (s.writeAndAdvance x (BitVec.ofNat 8 k.val)) := by
  simp only [exec, execLdVxK, h, writeAndAdvance_eq]

/-- `LD Vx, K` with no key found changes nothing (R183). -/
theorem exec_ldVxK_of_none {x : Reg} {s : State} (h : s.scanKeys = none) : exec (.ldVxK x) s = .next s := by
  simp only [exec, execLdVxK, h]

/-- The number of a key fits in a byte. -/
theorem ofNat_key_toNat (k : Fin 16) : (BitVec.ofNat 8 k.val).toNat = k.val := by
  rw [BitVec.toNat_ofNat]
  omega

/-- Settles O43: the scan finds the highest pressed key, or none when none is pressed. -/
theorem keyWaitTakesHighestOrWaits : Obligations.KeyWaitTakesHighestOrWaits := by
  refine fun x s => ⟨fun k hk hhighest => ?_, fun hnone => ?_⟩
  · have hscan := scanKeys_eq_some.mpr ⟨hk, hhighest⟩
    obtain ⟨t, ht, hreg, hpc, hframe⟩ := exec_writeAndAdvance_spec (exec_ldVxK_of_some (x := x) hscan)
    refine ⟨t, ht, ?_, hpc, hframe, ?_⟩
    · rw [hreg, ofNat_key_toNat]
    · simp only [instrStatus, hscan, Option.isSome_some, if_true]
  · have hscan := scanKeys_eq_none.mpr hnone
    refine ⟨exec_ldVxK_of_none hscan, ?_⟩
    simp [instrStatus, hscan]

/-- `LD Vx, DT` completes from every state and writes `DT` (R182). -/
theorem exec_ldVxDt (x : Reg) (s : State) : exec (.ldVxDt x) s = .next (s.writeAndAdvance x s.dt) := rfl

/-- `LD DT, Vx` completes from every state and writes `DT` (R184). -/
theorem exec_ldDtVx (x : Reg) (s : State) : exec (.ldDtVx x) s = .next (s.setDt (s.reg x)).advance := rfl

/-- `LD ST, Vx` completes from every state and writes `ST` (R185). -/
theorem exec_ldStVx (x : Reg) (s : State) : exec (.ldStVx x) s = .next (s.setSt (s.reg x)).advance := rfl

/-- Settles O44: each instruction is one write and the advance. -/
theorem delayTimerInstructions : Obligations.DelayTimerInstructions := by
  refine ⟨decodesAs_ldVxDt, decodesAs_ldDtVx, fun x s => ⟨?_, ?_⟩⟩
  · obtain ⟨t, ht, hreg, hpc, hframe⟩ := exec_writeAndAdvance_spec (exec_ldVxDt x s)
    exact ⟨t, ht, hreg, hpc, hframe, rfl⟩
  · exact ⟨_, exec_ldDtVx x s, rfl, advance_pc_toNat _, (unchangedBut_setDt s _).advance, rfl⟩

/-- Settles O45: one write of `ST` and the advance; the sound output is a function of `ST`. -/
theorem soundTimerLoadDrivesSound : Obligations.SoundTimerLoadDrivesSound :=
  fun x s => ⟨_, exec_ldStVx x s, rfl, decide_eq_true_iff, advance_pc_toNat _, (unchangedBut_setSt s _).advance⟩

/-- A tick is a subtraction floored at 0 (R215). -/
theorem tick_toNat (b : Byte) : (tick b).toNat = b.toNat - 1 := by
  revert b; decide

theorem byte_eq_zero_iff (b : Byte) : b = 0 ↔ ¬ b.toNat > 0 := by
  rw [← BitVec.toNat_inj]
  exact Nat.pos_iff_ne_zero.not_left.symm

/-- Settles O46: the two timers are written by themselves, and the notification reads `ST` before and after. -/
theorem tickDecrementsBothTimers : Obligations.TickDecrementsBothTimers := by
  intro s
  refine ⟨_, _, rfl, tick_toNat s.dt, tick_toNat s.st, ?_,
    (unchangedBut_setDt s (tick s.dt)).trans (unchangedBut_setSt _ (tick s.st))⟩
  simp only [State.updateTimers, setSt_st, byte_eq_zero_iff, ite_not]

/-- Settles O47: each read answers the state it was given, and what the port shows. -/
theorem readPortsShowStateAndChangeNothing : Obligations.ReadPortsShowStateAndChangeNothing := by
  refine fun s => ⟨⟨_, rfl, ?_, fun k => ?_⟩, fun k => rfl, rfl, _, rfl, ?_⟩
  · rw [State.readFramebuffer, List.length_map, List.length_finRange]
  · simp [State.readFramebuffer]
  · rw [State.soundOn, decide_eq_true_iff, ne_eq, byte_eq_zero_iff, not_not]

/-- One key cell is set, the others keep their values (R37). -/
theorem pressed_setKey (s : State) (k j : Fin 16) (v : Bool) :
    (s.setKey k v).pressed j = if j = k then v else s.pressed j := by
  have hk := k.isLt
  have hj := j.isLt
  simp only [State.setKey, State.pressed, Fin.ext_iff]
  by_cases h : j.val = k.val <;> cases v <;> simp [h, hk, hj]

/-- Settles O48: the write of one key cell. -/
theorem setKeySetsOneCell : Obligations.SetKeySetsOneCell := by
  refine fun s k v => ⟨s.setKey k v, rfl, by rw [pressed_setKey, if_pos rfl], fun c hc => ?_⟩
  cases c with
  | key j =>
    have hj : j ≠ k := fun h => hc (congrArg Cell.key h)
    rw [State.cell, State.cell, pressed_setKey, if_neg hj]
  | _ => rfl

end Sys2Proof.Machine
end

section
/-! Reset and loading, cell by cell (10_state.md R35; 70_reset_and_hazards.md R240 to R243). -/

namespace Sys2Proof.Machine

/-- Settles O1: every cell of the reset state evaluated; memory lists nothing, so a byte is its reset contents. -/
theorem resetValueOfEveryCell : Obligations.ResetValueOfEveryCell := by
  intro c
  cases c with
  | v r => simp [State.cell, State.reg, State.reset]
  | stk j => simp [State.cell, State.entry, State.reset]
  | mem a =>
    show (Memory.background (a.val % 4096)).toNat = if a.val < 80 then (fontByte a.val).toNat else 0
    rw [Nat.mod_eq_of_lt a.isLt]
    exact apply_ite BitVec.toNat _ _ _
  | fb k => simp [State.cell, State.pixel, Framebuffer.cell, State.reset]
  | key k => simp [State.cell, State.pressed, State.reset]
  | _ => rfl

/-- A reset leaves every cell at its reset value; only the count of draws, which is no cell, goes on (R240). -/
theorem initialized_cell (s : State) (c : Cell) : s.initialized.cell c = State.reset.cell c := by
  cases c <;> rfl

/-- Settles O2: the command makes the reset state but for the count of draws, which it keeps. -/
theorem initializeResetsEveryCell : Obligations.InitializeResetsEveryCell :=
  fun s => ⟨s.initialized, rfl, initialized_cell s, rfl⟩

/-- The loader's two cases (R242). -/
theorem command_loadProgram_of_le {bytes : List Byte} (s : State) (h : bytes.length ≤ 3584) :
    command (.loadProgram bytes) s = .next (s.initialized.writeBytes 0x200 bytes, .loadStatus .ok) := by
  have hfits : imageFits bytes = true := decide_eq_true h
  simp only [command, State.loadProgram, hfits, if_true]

theorem command_loadProgram_of_gt {bytes : List Byte} (s : State) (h : 3584 < bytes.length) :
    command (.loadProgram bytes) s = .next (s.initialized, .loadStatus .romTooLarge) := by
  have hlarge : imageFits bytes = false := decide_eq_false (Nat.not_le_of_lt h)
  simp [command, State.loadProgram, hlarge]

/-- Settles O50: a group store from 0x200 into the reset machine, or the reset machine. -/
theorem loaderPlacesImageOrResets : Obligations.LoaderPlacesImageOrResets := by
  refine fun s bytes => ⟨fun h => ?_, fun h => ⟨_, command_loadProgram_of_gt s h, initialized_cell s⟩⟩
  have hwf : Memory.wf s.initialized.mem = true := (initialized_inv s).1
  refine ⟨_, command_loadProgram_of_le s h, fun k hk => ?_, fun c hc => ?_⟩
  · exact memRead_writeBytes_inside hwf 0x200 bytes (by omega) k hk
  · have hframe := unchangedBut_writeBytes hwf 0x200 bytes c fun ⟨k, hk, hck⟩ => hc k hk hck
    exact hframe.trans (initialized_cell s c)

end Sys2Proof.Machine
end

section
/-! What any instruction can do to the cells few instructions write: the keys, the timers, memory, `ERR`, VF and `pc`. -/

namespace Sys2Proof.Machine

/-- What an instruction that took `s` to `t` may have done to the keys, the timers, memory and the latch (R27, R28, R31, R33,
R68). -/
structure RareEffects (i : Instr) (s t : State) : Prop where
  key : t.key = s.key
  dt : t.dt = s.dt ∨ ∃ x, i = .ldDtVx x ∧ t.dt = s.reg x
  st : t.st = s.st ∨ ∃ x, i = .ldStVx x ∧ t.st = s.reg x
  mem : t.mem = s.mem ∨ ∃ x, i = .ldB x ∨ i = .ldMemVx x
  err : t.err = s.err ∨ (s.sp = 16 ∧ t.err = .stackOverflow ∧ ∃ nnn, i = .call nnn) ∨
    (s.sp = 0 ∧ t.err = .stackUnderflow ∧ i = .ret)

/-- Every instruction stays within `RareEffects`. -/
theorem exec_rareEffects {i : Instr} {s t : State} (h : exec i s = .next t) : RareEffects i s t := by
  cases i with
  | ret =>
    obtain ⟨hsp, rfl⟩ | ⟨-, rfl⟩ := execRet_cases h
    · exact ⟨rfl, .inl rfl, .inl rfl, .inl rfl, .inr (.inr ⟨hsp, rfl, rfl⟩)⟩
    · exact ⟨rfl, .inl rfl, .inl rfl, .inl rfl, .inl rfl⟩
  | call nnn =>
    obtain ⟨hsp, rfl⟩ | ⟨-, rfl⟩ := execCall_cases h
    · exact ⟨rfl, .inl rfl, .inl rfl, .inl rfl, .inr (.inl ⟨hsp, rfl, nnn, rfl⟩)⟩
    · exact ⟨rfl, .inl rfl, .inl rfl, .inl rfl, .inl rfl⟩
  | ldVxK x =>
    obtain ⟨-, rfl⟩ | ⟨k, -, rfl⟩ := execLdVxK_cases h <;> exact ⟨rfl, .inl rfl, .inl rfl, .inl rfl, .inl rfl⟩
  | ldB x | ldMemVx x =>
    cases h
    exact ⟨writeBytes_key .., .inl (writeBytes_dt ..), .inl (writeBytes_st ..), .inr ⟨x, by simp⟩, .inl (writeBytes_err ..)⟩
  | ldVxMem x =>
    cases h
    exact ⟨loadRegs_key .., .inl (loadRegs_dt ..), .inl (loadRegs_st ..), .inl (loadRegs_mem ..), .inl (loadRegs_err ..)⟩
  | ldDtVx x => cases h; exact ⟨rfl, .inr ⟨x, rfl, rfl⟩, .inl rfl, .inl rfl, .inl rfl⟩
  | ldStVx x => cases h; exact ⟨rfl, .inl rfl, .inr ⟨x, rfl, rfl⟩, .inl rfl, .inl rfl⟩
  | _ => cases h; exact ⟨rfl, .inl rfl, .inl rfl, .inl rfl, .inl rfl⟩

/-- Settles O54: the memory clause of `RareEffects`. -/
theorem onlyTwoInstructionsStore : Obligations.OnlyTwoInstructionsStore :=
  fun _ _ _ h hmem => (exec_rareEffects h).mem.resolve_left hmem

/-- Settles O53: `CLS` and `DRW` set `DF`, and no other instruction touches the display. -/
theorem onlyClsAndDrwTouchTheDisplay : Obligations.OnlyClsAndDrwTouchTheDisplay := by
  refine fun i s t h => ⟨?_, fun ⟨hcls, hdrw⟩ => exec_fb_df_of_not_drawing h hcls hdrw⟩
  rintro (rfl | ⟨x, y, n, rfl⟩)
  · exact exec_cls_df h
  · exact exec_drw_df h

/-- Settles O55: while halted or on an unknown word a step changes none of these cells; else they change as `RareEffects`
says. -/
theorem stepLeavesKeysTimersAndLatchAlone : Obligations.StepLeavesKeysTimersAndLatchAlone := by
  intro s t h
  obtain ⟨-, rfl⟩ | ⟨hrun, i, hd, hi⟩ | ⟨-, e, -, rfl⟩ := step_cases h
  · exact ⟨rfl, absurd rfl, absurd rfl, absurd rfl⟩
  · obtain ⟨hkey, hdt, hst, -, herr⟩ := exec_rareEffects hi
    rw [hd]
    refine ⟨hkey, fun hne => ?_, fun hne => ?_, fun hne => ⟨hrun, ?_⟩⟩
    · obtain ⟨x, rfl, hx⟩ := hdt.resolve_left hne
      exact ⟨x, rfl, hx⟩
    · obtain ⟨x, rfl, hx⟩ := hst.resolve_left hne
      exact ⟨x, rfl, hx⟩
    · obtain ⟨hsp, hcause, nnn, rfl⟩ | ⟨hsp, hcause, rfl⟩ := herr.resolve_left hne
      · exact .inl ⟨hsp, hcause, nnn, rfl⟩
      · exact .inr ⟨hsp, hcause, rfl⟩
  · exact ⟨rfl, absurd rfl, absurd rfl, absurd rfl⟩

/-- A register that a write of one register changed is the one written. -/
theorem eq_of_reg_setReg_ne {s : State} {q r : Reg} {b : Byte} (h : (s.setReg r b).reg q ≠ s.reg q) : r = q := by
  by_contra hne
  exact h (reg_setReg_ne s b (Ne.symm hne))

/-- A register that a group load changed is one of the group. -/
theorem le_of_reg_loadRegs_ne {s : State} {q x : Reg} (h : (s.loadRegs (regsUpTo x)).reg q ≠ s.reg q) : q ≤ x := by
  by_contra hne
  exact h (by rw [loadRegs_reg, if_neg (mt (mem_regsUpTo q x).mp hne)])

/-- Settles O51: an instruction that writes one register changes VF only if that register is VF; the group load reaches VF only
with `x` = 15. -/
theorem onlyFlagWritersAndNamedDestinationsChangeVF : Obligations.OnlyFlagWritersAndNamedDestinationsChangeVF := by
  intro i s t h hvf
  cases i with
  | addReg x y | subReg x y | shr x y | subnReg x y | shl x y => exact .inl ⟨x, y, by simp⟩
  | drw x y n => exact .inr (.inl ⟨x, y, n, rfl⟩)
  | addI x => exact .inr (.inr (.inl ⟨x, rfl⟩))
  | ldImm x nn | addImm x nn | rnd x nn | ldReg x y | orReg x y | andReg x y | xorReg x y | ldVxDt x =>
    cases h
    obtain rfl := eq_of_reg_setReg_ne hvf
    simp
  | ldVxK x =>
    obtain ⟨-, rfl⟩ | ⟨k, -, rfl⟩ := execLdVxK_cases h
    · exact absurd rfl hvf
    · obtain rfl := eq_of_reg_setReg_ne hvf
      simp
  | ldVxMem x =>
    cases h
    have hx : 15 ≤ x := le_of_reg_loadRegs_ne hvf
    obtain rfl : x = 15 := le_antisymm (Fin.le_last x) hx
    simp
  | ret => obtain ⟨_, rfl⟩ | ⟨_, rfl⟩ := execRet_cases h <;> exact absurd rfl hvf
  | call nnn => obtain ⟨_, rfl⟩ | ⟨_, rfl⟩ := execCall_cases h <;> exact absurd rfl hvf
  | ldB x => cases h; exact absurd (writeBytes_reg ..) hvf
  | ldMemVx x => cases h; exact absurd (writeBytes_reg ..) hvf
  | _ => cases h; exact absurd rfl hvf

/-- Whether some key is pressed is whether the scan finds one (R183). -/
theorem exists_pressed_iff {s : State} : (∃ k, s.pressed k = true) ↔ s.scanKeys ≠ none := by
  rw [ne_eq, scanKeys_eq_none]
  simp

theorem pc_of_exec_ret {s t : State} (h : exec .ret s = .next t) :
    if s.sp = 0 then t.pc = s.pc else ∃ j : Fin 16, s.sp.toNat = j.val + 1 ∧ t.pc = s.entry j + 2 := by
  obtain ⟨hsp, rfl⟩ | ⟨hpos, rfl⟩ := execRet_cases h
  · rw [if_pos hsp]
    rfl
  · have hne : s.sp ≠ 0 := by rintro he; simp [he] at hpos
    rw [if_neg hne]
    exact ⟨⟨s.sp.toNat - 1, by omega⟩, (Nat.sub_add_cancel hpos.1).symm, rfl⟩

theorem pc_of_exec_call {nnn : Addr} {s t : State} (h : exec (.call nnn) s = .next t) :
    t.pc = if s.sp = 16 then s.pc else nnn.setWidth 16 := by
  obtain ⟨hsp, rfl⟩ | ⟨hlt, rfl⟩ := execCall_cases h
  · rw [if_pos hsp]
    rfl
  · have hne : s.sp ≠ 16 := by rintro he; simp [he] at hlt
    rw [if_neg hne]
    rfl

theorem pc_of_exec_ldVxK {x : Reg} {s t : State} (h : exec (.ldVxK x) s = .next t) :
    t.pc = if ∃ k, s.pressed k = true then s.pc + 2 else s.pc := by
  obtain ⟨hnone, rfl⟩ | ⟨k, hsome, rfl⟩ := execLdVxK_cases h
  · rw [if_neg (mt exists_pressed_iff.mp (not_not.mpr hnone))]
  · rw [if_pos (exists_pressed_iff.mpr (by simp [hsome]))]
    rfl

/-- A skip when its condition `p` fails (R24). -/
theorem skipIf_pc_toNat_of_not (s : State) {c : Bool} {p : Prop} [Decidable p] (hc : c = true ↔ ¬ p) :
    (s.skipIf c).pc.toNat = (s.pc.toNat + if p then 2 else 4) % 65536 := by
  rw [skipIf_pc_toNat s hc, ite_not]

/-- Settles O52: every instruction that is no transfer, skip or key wait ends with an advance. -/
theorem everyInstructionLeavesPcAsTabled : Obligations.EveryInstructionLeavesPcAsTabled := by
  intro i s t h
  cases i with
  | ret => exact pc_of_exec_ret h
  | call nnn => exact pc_of_exec_call h
  | jp nnn => cases h; exact zextAddr_toNat nnn
  | jpV0 nnn => cases h; exact zextAddr_add_zextByte_toNat nnn (s.reg 0)
  | ldVxK x => exact pc_of_exec_ldVxK h
  | seImm x nn => cases h; exact skipIf_pc_toNat s beq_iff_eq
  | seReg x y => cases h; exact skipIf_pc_toNat s beq_iff_eq
  | skp x => cases h; exact skipIf_pc_toNat s Iff.rfl
  | sneImm x nn => cases h; exact skipIf_pc_toNat_of_not s bne_iff_ne
  | sneReg x y => cases h; exact skipIf_pc_toNat_of_not s bne_iff_ne
  | sknp x => cases h; exact skipIf_pc_toNat_of_not s (by simp)
  | ldB x => exact pc_of_exec_ldB h
  | ldMemVx x => exact pc_of_exec_ldMemVx h
  | ldVxMem x =>
    cases h
    rw [advance_pc_toNat, setI_pc, loadRegs_pc]
  | _ => cases h; exact advance_pc_toNat _

end Sys2Proof.Machine
end

section
/-! The status of a step (60_exceptions.md R203, R207) and how a halt ends (R204, R206). -/

namespace Sys2Proof.Machine

theorem instrStatus_eq_stackOverflow_iff (i : Instr) (s : State) :
    instrStatus i s = .stackOverflow ↔ s.sp = 16 ∧ ∃ nnn, i = .call nnn := by
  cases i with
  | call nnn | ret | ldVxK x => simp only [instrStatus]; split_ifs <;> simp_all
  | _ => simp [instrStatus]

theorem instrStatus_eq_stackUnderflow_iff (i : Instr) (s : State) :
    instrStatus i s = .stackUnderflow ↔ s.sp = 0 ∧ i = .ret := by
  cases i with
  | call nnn | ret | ldVxK x => simp only [instrStatus]; split_ifs <;> simp_all
  | _ => simp [instrStatus]

theorem instrStatus_eq_waitKey_iff (i : Instr) (s : State) :
    instrStatus i s = .waitKey ↔ (∃ x, i = .ldVxK x) ∧ ∀ k, s.pressed k = false := by
  rw [← scanKeys_eq_none]
  cases i with
  | call nnn | ret => simp only [instrStatus]; split_ifs <;> simp
  | ldVxK x => cases h : s.scanKeys <;> simp [instrStatus, h]
  | _ => simp [instrStatus]

theorem instrStatus_ne_unknownOpcode (i : Instr) (s : State) : instrStatus i s ≠ .unknownOpcode := by
  cases i with
  | call nnn | ret | ldVxK x => simp only [instrStatus]; split_ifs <;> simp
  | _ => simp [instrStatus]

/-- An instruction latches an overflow exactly when it is a `CALL` on a full stack (R201). -/
theorem exec_err_eq_stackOverflow_iff {i : Instr} {s t : State} (hs : s.err = .running) (h : exec i s = .next t) :
    t.err = .stackOverflow ↔ s.sp = 16 ∧ ∃ nnn, i = .call nnn := by
  constructor
  · intro herr
    obtain hsame | ⟨hsp, -, hi⟩ | ⟨-, hcause, -⟩ := (exec_rareEffects h).err
    · simp [hsame, hs] at herr
    · exact ⟨hsp, hi⟩
    · simp [hcause] at herr
  · rintro ⟨hsp, nnn, rfl⟩
    rw [exec_call_of_full nnn hsp] at h
    cases h
    rfl

/-- An instruction latches an underflow exactly when it is a `RET` on an empty stack (R202). -/
theorem exec_err_eq_stackUnderflow_iff {i : Instr} {s t : State} (hs : s.err = .running) (h : exec i s = .next t) :
    t.err = .stackUnderflow ↔ s.sp = 0 ∧ i = .ret := by
  constructor
  · intro herr
    obtain hsame | ⟨-, hcause, -⟩ | ⟨hsp, -, hi⟩ := (exec_rareEffects h).err
    · simp [hsame, hs] at herr
    · simp [hcause] at herr
    · exact ⟨hsp, hi⟩
  · rintro ⟨hsp, rfl⟩
    rw [exec_ret_of_empty hsp] at h
    cases h
    rfl

/-- Settles O57: an instruction's status and its effect on the latch have the same condition; an unknown word has its own
status and leaves the latch alone. -/
theorem statusSaysWhatTheStepDid : Obligations.StatusSaysWhatTheStepDid := by
  intro s t hs h
  cases hd : decodeWord s.fetchWord with
  | ok i =>
    rw [step_of_decoded hs hd] at h
    rw [stepStatus_of_decoded hs hd]
    simp only [Except.ok.injEq]
    refine ⟨?_, ?_, instrStatus_eq_waitKey_iff i s, ?_⟩
    · rw [instrStatus_eq_stackOverflow_iff, exec_err_eq_stackOverflow_iff hs h]
    · rw [instrStatus_eq_stackUnderflow_iff, exec_err_eq_stackUnderflow_iff hs h]
    · simp [instrStatus_ne_unknownOpcode]
  | error e =>
    rw [step_of_unknown hs hd] at h
    cases h
    rw [stepStatus_of_unknown hs hd]
    simp [hs]

/-- Settles O58: a halted step changes nothing, the two resets reset the latch, and the other commands do not write it. -/
theorem onlyResetEndsAHalt : Obligations.OnlyResetEndsAHalt := by
  intro c s t r hs h
  cases c with
  | initializeBlock => cases h; exact .inr ⟨rfl, .inl rfl⟩
  | loadProgram bytes =>
    cases h
    refine .inr ⟨?_, .inr ⟨bytes, rfl⟩⟩
    unfold State.loadProgram
    split
    · exact writeBytes_err ..
    · rfl
  | step =>
    have hstep := (command_step_cases h).1
    rw [step_of_halted hs] at hstep
    cases hstep
    exact .inl ⟨rfl, by simp, by simp⟩
  | _ => cases h; exact .inl ⟨rfl, by simp, by simp⟩

end Sys2Proof.Machine
end

section
/-! The sound timer and the redraw flag are never read by a step (10_state.md R28, R32, R42): a step from a state with other
values of them goes the same way. -/

namespace Sys2Proof.Machine

/-- `s` with other values of `ST` and `DF`. -/
def State.withStDf (s : State) (b : Byte) (d : Bool) : State := (s.setSt b).setDf d

/-- The two states differ in `ST` and `DF` alone. -/
def SameButStDf (s t : State) : Prop := s.withStDf 0 false = t.withStDf 0 false

theorem sameButStDf_withStDf (s : State) (b : Byte) (d : Bool) : SameButStDf (s.withStDf b d) s := rfl

theorem advance_withStDf (s : State) (b : Byte) (d : Bool) : (s.withStDf b d).advance = s.advance.withStDf b d := rfl

theorem setI_withStDf (s : State) (b : Byte) (d : Bool) (w : Word) : (s.withStDf b d).setI w = (s.setI w).withStDf b d := rfl

theorem indexAfter_withStDf (s : State) (b : Byte) (d : Bool) (x : Reg) : (s.withStDf b d).indexAfter x = s.indexAfter x := rfl

theorem drawing_withStDf (s : State) (b : Byte) (d : Bool) (x y : Reg) (n : Nat) :
    (s.withStDf b d).drawing x y n = s.drawing x y n := rfl

theorem writeBytes_withStDf (s : State) (b : Byte) (d : Bool) (a : Nat) (bs : List Byte) :
    (s.withStDf b d).writeBytes a bs = (s.writeBytes a bs).withStDf b d := by
  induction bs generalizing s a with
  | nil => rfl
  | cons c bs ih => exact ih (s.memWrite a c) (a + 1)

theorem loadRegs_withStDf (s : State) (b : Byte) (d : Bool) (rs : List Reg) :
    (s.withStDf b d).loadRegs rs = (s.loadRegs rs).withStDf b d := by
  induction rs generalizing s with
  | nil => rfl
  | cons r rs ih => exact ih (s.setReg r (s.memRead (s.indexed r.val)))

/-- An instruction from `s` with other values of `ST` and `DF` does the same to every other cell. -/
theorem exec_withStDf {i : Instr} {s t : State} (b : Byte) (d : Bool) (h : exec i s = .next t) :
    ∃ t', exec i (s.withStDf b d) = .next t' ∧ SameButStDf t' t := by
  cases i with
  | ret =>
    obtain ⟨hsp, rfl⟩ | ⟨hpos, rfl⟩ := execRet_cases h
    · exact ⟨_, exec_ret_of_empty (s := s.withStDf b d) hsp, rfl⟩
    · exact ⟨_, exec_ret_of_pos (s := s.withStDf b d) hpos, rfl⟩
  | call nnn =>
    obtain ⟨hsp, rfl⟩ | ⟨hlt, rfl⟩ := execCall_cases h
    · exact ⟨_, exec_call_of_full (s := s.withStDf b d) nnn hsp, rfl⟩
    · exact ⟨_, exec_call_of_lt (s := s.withStDf b d) nnn hlt, rfl⟩
  | ldVxK x =>
    obtain ⟨hnone, rfl⟩ | ⟨k, hsome, rfl⟩ := execLdVxK_cases h
    · exact ⟨_, exec_ldVxK_of_none (s := t.withStDf b d) hnone, rfl⟩
    · exact ⟨_, exec_ldVxK_of_some (s := s.withStDf b d) hsome, rfl⟩
  | ldB x =>
    cases h
    refine ⟨_, exec_ldB x (s.withStDf b d), ?_⟩
    rw [writeBytes_withStDf, advance_withStDf]
    exact sameButStDf_withStDf _ b d
  | ldMemVx x =>
    cases h
    refine ⟨_, exec_ldMemVx x (s.withStDf b d), ?_⟩
    rw [writeBytes_withStDf, indexAfter_withStDf, setI_withStDf, advance_withStDf]
    exact sameButStDf_withStDf _ b d
  | ldVxMem x =>
    cases h
    refine ⟨_, exec_ldVxMem x (s.withStDf b d), ?_⟩
    rw [loadRegs_withStDf, indexAfter_withStDf, setI_withStDf, advance_withStDf]
    exact sameButStDf_withStDf _ b d
  | drw x y n =>
    cases h
    refine ⟨_, exec_drw x y n (s.withStDf b d), ?_⟩
    rw [drawing_withStDf]
    rfl
  | _ => cases h; exact ⟨_, rfl, rfl⟩

/-- Settles O56: the fetch and the halt latch do not read `ST` or `DF` either. -/
theorem soundTimerAndRedrawFlagAreNeverRead : Obligations.SoundTimerAndRedrawFlagAreNeverRead := by
  intro s t b d h
  obtain ⟨hhalt, rfl⟩ | ⟨hrun, i, hd, hi⟩ | ⟨hrun, e, hd, rfl⟩ := step_cases h
  · exact ⟨_, step_of_halted (s := t.withStDf b d) hhalt, rfl⟩
  · obtain ⟨t', ht', hsame⟩ := exec_withStDf b d hi
    exact ⟨t', (step_of_decoded (s := s.withStDf b d) hrun hd).trans ht', hsame⟩
  · exact ⟨_, step_of_unknown (s := s.withStDf b d) hrun hd, rfl⟩

end Sys2Proof.Machine
end

section
/-! Successful runs (60_exceptions.md R204): a command from a running state ends in a running one exactly when it reports no
stack error, and the run is that, command after command. -/

namespace Sys2Proof.Machine

/-- The response is neither of the two stack errors (R203). -/
def NoStackError (r : Response) : Prop := r ≠ .stepStatus .stackOverflow ∧ r ≠ .stepStatus .stackUnderflow

/-- A step from a running state stays running exactly when its status is no stack error, by O57. -/
theorem step_running_iff {s t : State} (hs : s.err = .running) (h : step s = .next t) :
    t.err = .running ↔ NoStackError (.stepStatus (stepStatus s)) := by
  obtain ⟨hover, hunder, -, -⟩ := statusSaysWhatTheStepDid s t hs h
  simp only [NoStackError, ne_eq, Response.stepStatus.injEq, hover, hunder]
  cases t.err <;> simp

/-- The loader leaves the machine running (R242). -/
theorem loadProgram_err (s : State) (bytes : List Byte) : (s.loadProgram bytes).1.err = .running := by
  unfold State.loadProgram
  split
  · exact writeBytes_err ..
  · rfl

/-- A command from a running state ends in a running one exactly when it reports no stack error. -/
theorem command_running_iff {c : Command} {s t : State} {r : Response} (hs : s.err = .running)
    (h : command c s = .next (t, r)) : t.err = .running ↔ NoStackError r := by
  cases c with
  | step =>
    obtain ⟨hstep, rfl⟩ := command_step_cases h
    exact step_running_iff hs hstep
  | loadProgram bytes => cases h; simp [NoStackError, loadProgram_err]
  | initializeBlock => cases h; exact iff_of_true rfl (by simp [NoStackError])
  | _ => cases h; exact iff_of_true hs (by simp [NoStackError])

/-- A run that completes begins with a command that completes. -/
theorem command_of_runCommands_cons {c : Command} {cs : List Command} {s u : State} {rs : List Response}
    (h : runCommands (c :: cs) s = .next (u, rs)) : ∃ t r, command c s = .next (t, r) := by
  unfold runCommands at h
  split at h
  · exact ⟨_, _, ‹_›⟩
  · cases h
  · cases h

/-- A run from a running state is successful exactly when it completes and no response of it is a stack error. -/
theorem safeRun_iff {cs : List Command} {s : State} (hs : s.err = .running) :
    SafeRun cs s ↔ ∃ u rs, runCommands cs s = .next (u, rs) ∧ ∀ r ∈ rs, NoStackError r := by
  induction cs generalizing s with
  | nil => exact iff_of_true ((safeRun_nil s).mpr hs) ⟨s, [], rfl, by simp⟩
  | cons c cs ih =>
    constructor
    · intro h
      obtain ⟨-, t, r, hc, hrest⟩ := (safeRun_cons c cs s).mp h
      obtain ⟨u, rs, hrun, hrs⟩ := (ih hrest.running).mp hrest
      have hr : NoStackError r := (command_running_iff hs hc).mp hrest.running
      exact ⟨u, r :: rs, (runCommands_cons hc u _).mpr ⟨rs, hrun, rfl⟩, List.forall_mem_cons.mpr ⟨hr, hrs⟩⟩
    · rintro ⟨u, rs, hrun, hrs⟩
      obtain ⟨t, r, hc⟩ := command_of_runCommands_cons hrun
      obtain ⟨rs', hrun', rfl⟩ := (runCommands_cons hc u rs).mp hrun
      obtain ⟨hr, hrs'⟩ := List.forall_mem_cons.mp hrs
      have ht : t.err = .running := (command_running_iff hs hc).mpr hr
      exact (safeRun_cons c cs s).mpr ⟨hs, t, r, hc, (ih ht).mpr ⟨u, rs', hrun', hrs'⟩⟩

/-- The absence of the two stack errors, response by response. -/
theorem forall_noStackError_iff (rs : List Response) :
    (∀ r ∈ rs, NoStackError r) ↔ .stepStatus .stackOverflow ∉ rs ∧ .stepStatus .stackUnderflow ∉ rs := by
  simp only [NoStackError, imp_and, forall_and, List.forall_mem_ne']

/-- Settles O60: the induction of `safeRun_iff` over the commands. -/
theorem safeRunIsTheRunWithoutStackErrors : Obligations.SafeRunIsTheRunWithoutStackErrors := by
  intro cs s hs
  rw [safeRun_iff hs]
  simp only [forall_noStackError_iff]

end Sys2Proof.Machine
end
